-- ==== Sys2Proof/Word.lean ====
section
/-! DEFINITION. Words, bytes, and the small field types of the two instruction formats.
00_scope.md R7, R10, R11; 30_encoding.md R80, R84. -/

namespace Sys2Proof

/-- A 32-bit word: every register and the datapath (00_scope.md R7). `+` wraps modulo 2^32 (R11). -/
abbrev Word := BitVec 32

/-- A byte: one lane of a word (20_memory.md R61). -/
abbrev Byte := BitVec 8

/-- SIZE of a host transaction descriptor (30_encoding.md R84): 00 byte, 01 halfword, 10 word,
11 reserved. -/
inductive Size where
  | byte
  | half
  | word
  | reserved
deriving DecidableEq, Repr

/-- A command the block accepts (30_encoding.md R81). `len` is the 7-bit LEN field (R82). -/
inductive Cmd where
  | nop
  | ks (len : BitVec 7)
  | xor (len : BitVec 7)
  | clrbuf
  | zeroize
deriving DecidableEq, Repr

end Sys2Proof
end

