-- ==== Sys2Proof/Syntax.lean ====
section
/-! DEFINITION. The instructions: one constructor per row of spec/opcode_table.json. -/

namespace Sys2Proof

/-- The five commands and the two host transactions (INDEX.md, 30_encoding.md R81, R85).
A transaction carries the SIZE and OFF of its descriptor, as the operands of 43_register_access.md
R150 and R153 do, so the narrow and misaligned forms of 30_encoding.md R92 (`rd.b`, `wr.h`, ...) are
terms too (log 12). -/
inductive Instr where
  /-- NOP (42_control_commands.md R140). -/
  | nop
  /-- KS len (41_keystream_commands.md R125). -/
  | ks (len : BitVec 7)
  /-- XOR len (41_keystream_commands.md R126). -/
  | xor (len : BitVec 7)
  /-- CLRBUF (42_control_commands.md R141). -/
  | clrbuf
  /-- ZEROIZE (42_control_commands.md R142). -/
  | zeroize
  /-- RD (43_register_access.md R150). -/
  | rd (size : Size) (off : BitVec 8)
  /-- WR (43_register_access.md R153). -/
  | wr (size : Size) (off : BitVec 8) (data : Word)
deriving DecidableEq, Repr

/-- A command as an instruction. -/
def Cmd.toInstr : Cmd → Instr
  | .nop => .nop
  | .ks len => .ks len
  | .xor len => .xor len
  | .clrbuf => .clrbuf
  | .zeroize => .zeroize

end Sys2Proof
end

