-- ==== Sys2Proof/WellFormed.lean ====
section
/-! DEFINITION. The forms of an instruction that the spec calls legal: LEN 1..64 (30_encoding.md R82),
a word-sized aligned transaction (R85). Every other term still decodes, runs and is refused with the
error the spec names. -/

namespace Sys2Proof

/-- LEN is legal for KS and XOR: 1 to 64 (30_encoding.md R82). -/
def legalLen (len : BitVec 7) : Bool := decide (1 ≤ len.toNat) && decide (len.toNat ≤ 64)

/-- SIZE = 10 and OFF[1:0] = 00: the descriptor is RD or WR and no refused transaction
(30_encoding.md R85). -/
def legalAccess (size : Size) (off : BitVec 8) : Bool :=
  decide (size = .word) && decide (off.toNat % 4 = 0)

/-- The instruction is in a legal form. -/
def Instr.wellFormed : Instr → Bool
  | .nop => true
  | .ks len => legalLen len
  | .xor len => legalLen len
  | .clrbuf => true
  | .zeroize => true
  | .rd size off => legalAccess size off
  | .wr size off _ => legalAccess size off

end Sys2Proof
end

