-- ==== Sys2Proof/Decode.lean ====
section
/-! DEFINITION. Decoding and encoding of command words and host transaction descriptors
(30_encoding.md). -/

namespace Sys2Proof

/-- An instruction as the hardware sees it: a command word (30_encoding.md R80), or a host transaction
descriptor with its data word (R84). -/
inductive Code where
  | cmd (word : Word)
  | host (desc : BitVec 11) (data : Word)
deriving DecidableEq, Repr

/-- Why a code is no instruction (30_encoding.md R86). -/
inductive Reject where
  /-- RSV0 or RSV1 is not 0. -/
  | reservedBits
  /-- OP is 0x5..0xF. -/
  | reservedOp
  /-- NOP, CLRBUF or ZEROIZE with LEN ≠ 0. -/
  | lenNotZero
deriving DecidableEq, Repr

/-- What a decoder answers. -/
inductive Decoded (α : Type) where
  | ok (a : α)
  | reject (r : Reject)
deriving DecidableEq, Repr

/-- Apply a function to an accepted answer. -/
def Decoded.map {α β : Type} (f : α → β) : Decoded α → Decoded β
  | .ok a => .ok (f a)
  | .reject r => .reject r

/-- The accepted answer, if there is one. -/
def Decoded.toOption {α : Type} : Decoded α → Option α
  | .ok a => some a
  | .reject _ => none

/-- OP, bits [3:0] of a command word (30_encoding.md R80). -/
def opField (w : Word) : BitVec 4 := w.extractLsb' 0 4
/-- RSV0, bits [7:4] (30_encoding.md R80). -/
def rsv0Field (w : Word) : BitVec 4 := w.extractLsb' 4 4
/-- LEN, bits [14:8] (30_encoding.md R80). -/
def lenField (w : Word) : BitVec 7 := w.extractLsb' 8 7
/-- RSV1, bits [31:15] (30_encoding.md R80). -/
def rsv1Field (w : Word) : BitVec 17 := w.extractLsb' 15 17

/-- A command without operand needs LEN = 0 (30_encoding.md R82, R86). -/
def needLenZero (len : BitVec 7) (c : Cmd) : Decoded Cmd :=
  if len = 0#7 then .ok c else .reject .lenNotZero

/-- The command decoder (30_encoding.md R87). -/
def decodeCmd (w : Word) : Decoded Cmd :=
  if rsv1Field w ≠ 0#17 ∨ rsv0Field w ≠ 0#4 then .reject .reservedBits
  else
    match (opField w).toNat with
    | 0 => needLenZero (lenField w) .nop
    | 1 => .ok (.ks (lenField w))
    | 2 => .ok (.xor (lenField w))
    | 3 => needLenZero (lenField w) .clrbuf
    | 4 => needLenZero (lenField w) .zeroize
    | _ => .reject .reservedOp

/-- SIZE from its two bits (30_encoding.md R84). -/
def sizeOfBits (b : BitVec 2) : Size :=
  match b.toNat with
  | 0 => .byte
  | 1 => .half
  | 2 => .word
  | _ => .reserved

/-- WE, bit 10 of a descriptor (30_encoding.md R84). -/
def weField (d : BitVec 11) : Bool := d.getLsbD 10
/-- SIZE, bits [9:8] (30_encoding.md R84). -/
def sizeField (d : BitVec 11) : Size := sizeOfBits (d.extractLsb' 8 2)
/-- OFF, bits [7:0] (30_encoding.md R84). -/
def offField (d : BitVec 11) : BitVec 8 := d.extractLsb' 0 8

/-- Descriptor decode (30_encoding.md R85). A read carries no data word. -/
def decodeTxn (d : BitVec 11) (data : Word) : Instr :=
  if weField d then .wr (sizeField d) (offField d) data else .rd (sizeField d) (offField d)

/-- The decoder: total, and it rejects by name. -/
def decode : Code → Decoded Instr
  | .cmd w => (decodeCmd w).map Cmd.toInstr
  | .host d data => .ok (decodeTxn d data)

/-- OP of a command (30_encoding.md R81). -/
def cmdOp : Cmd → BitVec 4
  | .nop => 0x0#4
  | .ks _ => 0x1#4
  | .xor _ => 0x2#4
  | .clrbuf => 0x3#4
  | .zeroize => 0x4#4

/-- LEN of a command: 0 for the commands without operand (30_encoding.md R80). -/
def cmdLen : Cmd → BitVec 7
  | .ks len => len
  | .xor len => len
  | .nop => 0#7
  | .clrbuf => 0#7
  | .zeroize => 0#7

/-- The command word RSV1 : LEN : RSV0 : OP (30_encoding.md R80). -/
def encodeCmd (c : Cmd) : Word := 0#17 ++ cmdLen c ++ 0#4 ++ cmdOp c

/-- The two bits of SIZE (30_encoding.md R84). -/
def sizeBits : Size → BitVec 2
  | .byte => 0#2
  | .half => 1#2
  | .word => 2#2
  | .reserved => 3#2

/-- The descriptor WE : SIZE : OFF (30_encoding.md R84). -/
def encodeDesc (we : Bool) (size : Size) (off : BitVec 8) : BitVec 11 :=
  BitVec.ofBool we ++ sizeBits size ++ off

/-- The encoder: the words of an instruction. -/
def encode : Instr → Code
  | .nop => .cmd (encodeCmd .nop)
  | .ks len => .cmd (encodeCmd (.ks len))
  | .xor len => .cmd (encodeCmd (.xor len))
  | .clrbuf => .cmd (encodeCmd .clrbuf)
  | .zeroize => .cmd (encodeCmd .zeroize)
  | .rd size off => .host (encodeDesc false size off) 0#32
  | .wr size off data => .host (encodeDesc true size off) data

/-- The offset of CMD (10_state.md R21). -/
def cmdOffset : BitVec 8 := 0x08#8

/-- The bus transaction that carries a code: a descriptor is one; a command word is written to CMD
(30_encoding.md R93). -/
def Code.txn : Code → BitVec 11 × Word
  | .cmd w => (encodeDesc true .word cmdOffset, w)
  | .host d data => (d, data)

/-- The number matches the RD or WR row of the opcode table (mask 0x703) and has no bit above the
descriptor's eleven. -/
def isTransferRow (w : Nat) : Bool :=
  decide (w < 2048) && (decide (w &&& 0x703 = 0x200) || decide (w &&& 0x703 = 0x600))

/-- The code that `nbits` bits of the opcode table's numbering stand for. 32 bits are a command word;
any other number of bits is a descriptor in bits 10..0 and, from bit 16 on, the data word; bits 15..11
must be 0. No command word matches the RD or WR row (both rows have LEN ≠ 0 with OP even or reserved),
so a 32-bit number that is no command and matches one of the two rows is read as that row (log 10). -/
def tableCode (nbits w : Nat) : Option Code :=
  if nbits = 32 then
    if (decodeCmd (BitVec.ofNat 32 w)).toOption.isNone && isTransferRow w then
      some (.host (BitVec.ofNat 11 w) 0#32)
    else some (.cmd (BitVec.ofNat 32 w))
  else if w / 2048 % 32 = 0 then some (.host (BitVec.ofNat 11 w) (BitVec.ofNat 32 (w / 65536)))
  else none

/-- The instruction the decoder reads from an instruction whose bits are `w`, numbered as
spec/opcode_table.json numbers them (log 10). -/
def decodeTableWord (nbits w : Nat) : Option Instr :=
  match tableCode nbits w with
  | some c => (decode c).toOption
  | none => none

end Sys2Proof
end

