-- ==== Sys2Proof/Config.lean ====
section
/-! DEFINITION. What is fixed for one machine: the spec's fixed parameters (00_scope.md R7) and its
open parameters (R8), which have no value in Lean. -/

namespace Sys2Proof.Config

/-- A free value: one less than CC20_LATENCY. Nothing is known of it (log 3). -/
opaque latencyLessOne : Nat

/-- CC20_LATENCY: cycles from acceptance to completion, "an integer ≥ 1, the same for every command
and every data value" (00_scope.md R8, log 3). -/
def latency : Nat := latencyLessOne + 1

/-- A free value: CC20_BASE divided by 256 (log 4). -/
opaque baseIndex : Nat

/-- CC20_BASE: the base address of the window, "a multiple of 256" (00_scope.md R8, log 4). -/
def base : Nat := 256 * baseIndex

/-- CC20_IRQ: where the irq output is routed on the platform (00_scope.md R8, log 4). -/
opaque irqLine : Nat

/-- Ten double rounds, twenty rounds (00_scope.md R7). -/
def doubleRounds : Nat := 10

/-- The window has 256 bytes (00_scope.md R7, 10_state.md R21). -/
def windowBytes : Nat := 256

/-- The constant that ID reads (10_state.md R22). -/
def idValue : Word := 0xCC200100#32

/-- The constant words c0..c3 (40_block_function.md R100). -/
def c0 : Word := 0x61707865#32
@[inherit_doc c0] def c1 : Word := 0x3320646e#32
@[inherit_doc c0] def c2 : Word := 0x79622d32#32
@[inherit_doc c0] def c3 : Word := 0x6b206574#32

end Sys2Proof.Config
end

