-- ==== Sys2Proof/Machine/State.lean ====
section
/-! DEFINITION. The state of the block (10_state.md R20), the reasons a step stops, and reset
(70_reset_and_hazards.md R200). -/

namespace Sys2Proof.Machine

/-- CTRL bits [2:0] (10_state.md R23). Bits [31:3] hold nothing. -/
structure Ctrl where
  /-- Bit 0: 1 for the 64-bit counter IV1:IV0, 0 for the 32-bit counter IV0. -/
  ctr64 : Bool
  /-- Bit 1: STATUS.DONE drives irq. -/
  doneIe : Bool
  /-- Bit 2: STATUS.ERRV drives irq. -/
  errIe : Bool
deriving DecidableEq, Repr

/-- The stored fields of STATUS (10_state.md R24). KEYV is computed from KEYMASK (log 11). -/
structure Status where
  busy : Bool
  done : Bool
  errv : Bool
  errovf : Bool
  errcode : BitVec 3
  wrap : Bool
  keymask : BitVec 8
deriving DecidableEq, Repr

/-- What reaches the block next (log 1). -/
inductive Input where
  /-- One host transaction: an 11-bit descriptor and a data word (30_encoding.md R84). -/
  | txn (desc : BitVec 11) (data : Word)
  /-- One clock cycle passes (10_state.md R35). -/
  | clock
  /-- The host runs `wait` (30_encoding.md R94). `gaps` is how many clock cycles, beyond the one that must
  pass, the host lets pass before each next read of STATUS; past its end, none (log 15). -/
  | wait (gaps : List Nat)
  /-- The platform asserts reset (70_reset_and_hazards.md R200). -/
  | assertReset
  /-- The platform releases reset (70_reset_and_hazards.md R201). -/
  | releaseReset
deriving DecidableEq, Repr

/-- All the state the spec gives the block, and three fields of the model: `resetIn`, `resp`,
`inputs`. -/
structure State where
  /-- CTRL (10_state.md R23). -/
  ctrl : Ctrl
  /-- STATUS (10_state.md R24). -/
  status : Status
  /-- KEY0..KEY7 (10_state.md R27). -/
  key : Vector Word 8
  /-- IV0..IV3 (10_state.md R29). -/
  iv : Vector Word 4
  /-- DIN0..DIN15 (10_state.md R31). -/
  din : Vector Word 16
  /-- DOUT0..DOUT15 (10_state.md R32). -/
  dout : Vector Word 16
  /-- The working state x[0..15] (10_state.md R33). -/
  x : Vector Word 16
  /-- The keystream buffer ks[0..63] (10_state.md R33). -/
  ks : Vector Byte 64
  /-- PEND, the pending command (10_state.md R34, log 8). -/
  pend : Option Cmd
  /-- LEFT, the latency countdown (10_state.md R35). -/
  left : Nat
  /-- Reset is asserted (70_reset_and_hazards.md R201, log 6). -/
  resetIn : Bool
  /-- What the latest transaction returned to the host: a word after a read, nothing after a write
  (log 5). -/
  resp : Option Word
  /-- What reaches the block next, first first (log 1). -/
  inputs : List Input
deriving DecidableEq, Repr

/-- Why a step stops with a fault. -/
inductive Fault where
  /-- Raised by `step` when a transaction, or `wait`, is the next input while reset is asserted: "While reset is
  asserted it accepts no transaction; what the bus does with one then is the platform's"
  (70_reset_and_hazards.md R201; 93_implementation_defined.md U7 'stuck'). Safe: the machine stops
  (log 6). No instruction's meaning raises it. -/
  | transactionDuringReset
deriving DecidableEq, Repr

/-- Why a step is refused. -/
inductive Refusal where
  /-- Raised by an arm of `exec` for an instruction that has no meaning yet; no arm raises it in this
  model. Safe: the machine stops. -/
  | notModelled (mnemonic : String)
deriving DecidableEq, Repr

/-- One step's answer. -/
abbrev Outcome := Host.Outcome State Fault Refusal

/-- CTRL after reset: 0x00000001 (70_reset_and_hazards.md R200). -/
def Ctrl.reset : Ctrl := { ctr64 := true, doneIe := false, errIe := false }

/-- STATUS after reset: 0x00000000 (70_reset_and_hazards.md R200). -/
def Status.reset : Status :=
  { busy := false, done := false, errv := false, errovf := false, errcode := 0#3, wrap := false,
    keymask := 0#8 }

/-- The machine right after reset: every register at its reset value, idle (70_reset_and_hazards.md
R200, R201), reset released and no input waiting (logs 1, 5, 6). -/
def State.reset : State :=
  { ctrl := Ctrl.reset
    status := Status.reset
    key := Vector.replicate 8 0#32
    iv := Vector.replicate 4 0#32
    din := Vector.replicate 16 0#32
    dout := Vector.replicate 16 0#32
    x := Vector.replicate 16 0#32
    ks := Vector.replicate 64 0#8
    pend := none
    left := 0
    resetIn := false
    resp := none
    inputs := [] }

end Sys2Proof.Machine
end

