-- ==== Sys2Proof/Machine/Flags.lean ====
section
/-! DEFINITION. The flags: what CTRL and STATUS read, KEYV, irq, and the W1C write of STATUS. -/

namespace Sys2Proof.Machine

/-- One bit as a one-bit vector. -/
abbrev bit (b : Bool) : BitVec 1 := BitVec.ofBool b

/-- What a read of CTRL gives: bits [31:3] read 0 (10_state.md R23, 43_register_access.md R150). -/
def ctrlWord (c : Ctrl) : Word := 0#29 ++ bit c.errIe ++ bit c.doneIe ++ bit c.ctr64

/-- CTRL from a written word: bits [31:3] are ignored (43_register_access.md R154). -/
def ctrlOfWord (v : Word) : Ctrl :=
  { ctr64 := v.getLsbD 0, doneIe := v.getLsbD 1, errIe := v.getLsbD 2 }

/-- KEYV: "1 exactly when KEYMASK = 0xFF" (10_state.md R24, R25). -/
def keyv (st : Status) : Bool := decide (st.keymask = 0xFF#8)

/-- What a read of STATUS gives, field by field from bit 31 down (10_state.md R24). -/
def statusWord (st : Status) : Word :=
  0#8 ++ st.keymask ++ 0#6 ++ bit st.wrap ++ bit (keyv st) ++ 0#1 ++ st.errcode
    ++ bit st.errovf ++ bit st.errv ++ bit st.done ++ bit st.busy

/-- The interrupt output (60_exceptions.md R180); a function of STATUS and CTRL at every moment
(10_state.md R39). -/
def irq (s : State) : Bool :=
  (s.status.done && s.ctrl.doneIe) || (s.status.errv && s.ctrl.errIe)

/-- The W1C bits of STATUS (43_register_access.md R155). -/
def clearW1C (v : Word) (st : Status) : Status :=
  { st with
    done := st.done && !v.getLsbD 1
    errv := st.errv && !v.getLsbD 2
    errcode := if v.getLsbD 2 then 0#3 else st.errcode
    errovf := st.errovf && !v.getLsbD 3 }

end Sys2Proof.Machine
end

