-- ==== Sys2Proof/Machine/Ops.lean ====
section
/-! DEFINITION. Shared operations: byte lanes, recording an error and acknowledging it, acceptance and
the common part of completion, the answer to the host. -/

namespace Sys2Proof.Machine

/-! ### Bytes and words -/

/-- Byte lane `k` of a word: bits [8k+7:8k] (20_memory.md R61). -/
def lane (w : Word) (k : Nat) : Byte := w.extractLsb' (8 * k) 8

/-- `le32(b0,b1,b2,b3)` is `b3:b2:b1:b0` (00_scope.md R12). -/
def le32 (b0 b1 b2 b3 : Byte) : Word := b3 ++ b2 ++ b1 ++ b0

/-- Byte `i` of a 16-word file: lane (i mod 4) of word i div 4 (00_scope.md R12, 10_state.md R31).
DINB and DOUTB are this function of DIN and DOUT. -/
def fileByte (v : Vector Word 16) (i : Nat) : Byte := lane (v.getD (i / 4) 0#32) (i % 4)

/-- The sixteen words with the given values. -/
def tabulate16 (f : Nat → Word) : Vector Word 16 :=
  #v[f 0, f 1, f 2, f 3, f 4, f 5, f 6, f 7, f 8, f 9, f 10, f 11, f 12, f 13, f 14, f 15]

/-- The file whose byte `i` is `f i` (10_state.md R32). -/
def fileOfBytes (f : Nat → Byte) : Vector Word 16 :=
  tabulate16 fun j => le32 (f (4 * j)) (f (4 * j + 1)) (f (4 * j + 2)) (f (4 * j + 3))

/-- The sixty-four bytes of a file, in order (40_block_function.md R104). -/
def bytesOfFile (z : Vector Word 16) : Vector Byte 64 := Vector.ofFn fun i => fileByte z i.val

/-! ### Errors: entry and return -/

/-- The errors (60_exceptions.md R170). -/
inductive Err where
  | busy
  | illegalCmd
  | badLen
  | noKey
  | ctrExhausted
  | access
deriving DecidableEq, Repr

/-- The code of an error in STATUS.ERRCODE (60_exceptions.md R170). -/
def errCode : Err → BitVec 3
  | .busy => 1#3
  | .illegalCmd => 2#3
  | .badLen => 3#3
  | .noKey => 4#3
  | .ctrExhausted => 5#3
  | .access => 6#3

/-- `raise e`: record an error in STATUS and change nothing else (60_exceptions.md R172, R175). -/
def record (e : Err) (s : State) : State :=
  if s.status.errv then { s with status := { s.status with errovf := true } }
  else { s with status := { s.status with errv := true, errcode := errCode e } }

/-- The STATUS write that acknowledges an error or a completion (43_register_access.md R155,
60_exceptions.md R176). -/
def writeStatus (v : Word) (s : State) : State := { s with status := clearW1C v s.status }

/-! ### The life of a command -/

/-- Acceptance (70_reset_and_hazards.md R205). -/
def accept (c : Cmd) (s : State) : State :=
  { s with
    pend := some c
    left := Config.latency
    status := { s.status with done := false, busy := true } }

/-- The part of a completion common to every command (70_reset_and_hazards.md R205). -/
def finish (s : State) : State :=
  { s with
    x := Vector.replicate 16 0#32
    ks := Vector.replicate 64 0#8
    pend := none
    left := 0
    status := { s.status with busy := false, done := true } }

/-- Issue of a decoded command by a CMD write: BUSY while a command is in flight
(43_register_access.md R152), else the first failing check, else acceptance (R159). -/
def issue (check : Option Err) (c : Cmd) (s : State) : State :=
  if s.status.busy then record .busy s
  else
    match check with
    | some e => record e s
    | none => accept c s

/-! ### The answer to the host -/

/-- A read returns `v` to the host (43_register_access.md R150, log 5). -/
def answer (v : Word) (s : State) : State := { s with resp := some v }

/-- A write returns nothing to the host (log 5). -/
def answerNone (s : State) : State := { s with resp := none }

end Sys2Proof.Machine
end

