-- ==== Sys2Proof/Machine/Operands.lean ====
section
/-! DEFINITION. Operand forms: the register an offset names, the checks of a transaction's form and of
KS and XOR, bus addresses, the block counter. -/

namespace Sys2Proof.Machine

/-- The register or reserved range an offset falls in (10_state.md R21). -/
inductive RegClass where
  | ctrl
  | status
  | cmd
  | id
  | key (i : Fin 8)
  | iv (i : Fin 4)
  | din (i : Fin 16)
  | dout (i : Fin 16)
  | reserved
deriving DecidableEq, Repr

/-- `class(OFF)` (43_register_access.md, 10_state.md R21). An offset whose bits [1:0] are not 00 names
no register. -/
def classOf (off : BitVec 8) : RegClass :=
  if off.toNat % 4 ≠ 0 then .reserved
  else if off.toNat < 0x04 then .ctrl
  else if off.toNat < 0x08 then .status
  else if off.toNat < 0x0C then .cmd
  else if off.toNat < 0x10 then .id
  else if off.toNat < 0x20 then .reserved
  else if off.toNat < 0x40 then .key (Fin.ofNat 8 ((off.toNat - 0x20) / 4))
  else if off.toNat < 0x50 then .iv (Fin.ofNat 4 ((off.toNat - 0x40) / 4))
  else if off.toNat < 0x80 then .reserved
  else if off.toNat < 0xC0 then .din (Fin.ofNat 16 ((off.toNat - 0x80) / 4))
  else .dout (Fin.ofNat 16 ((off.toNat - 0xC0) / 4))

/-- The offset of a register (10_state.md R21); none for the reserved range. -/
def offsetOf : RegClass → Option (BitVec 8)
  | .ctrl => some 0x00#8
  | .status => some 0x04#8
  | .cmd => some 0x08#8
  | .id => some 0x0C#8
  | .key i => some (BitVec.ofNat 8 (0x20 + 4 * i.val))
  | .iv i => some (BitVec.ofNat 8 (0x40 + 4 * i.val))
  | .din i => some (BitVec.ofNat 8 (0x80 + 4 * i.val))
  | .dout i => some (BitVec.ofNat 8 (0xC0 + 4 * i.val))
  | .reserved => none

/-- SIZE = 10 and OFF[1:0] = 00: the transaction is not refused for its width or alignment
(20_memory.md R62, R63). -/
def plainAccess (size : Size) (off : BitVec 8) : Bool := legalAccess size off

/-- The operand checks of KS and XOR, in order; the first that fails (41_keystream_commands.md R122). -/
def checkKsXor (len : BitVec 7) (st : Status) : Option Err :=
  if len.toNat = 0 ∨ 64 < len.toNat then some .badLen
  else if st.keymask ≠ 0xFF#8 then some .noKey
  else if st.wrap then some .ctrExhausted
  else none

/-- The bus address of an offset: `CC20_BASE + OFF` (30_encoding.md R84). -/
def busAddress (off : BitVec 8) : Nat := Config.base + off.toNat

/-- The offset of a bus address inside the window (20_memory.md R60); none outside it, where the block
is not addressed. -/
def offsetOfBusAddress (addr : Nat) : Option (BitVec 8) :=
  if Config.base ≤ addr ∧ addr < Config.base + Config.windowBytes then
    some (BitVec.ofNat 8 (addr - Config.base))
  else none

/-- SIZE of a bus access of `n` bytes (00_scope.md R12, 30_encoding.md R84). DESIGN CHOICE: the spec names
no descriptor for an `n` other than 1, 2 and 4, and the model reads it as SIZE 11, which is refused with
ACCESS (log 14, unsafe). -/
def sizeOfBytes (n : Nat) : Size :=
  match n with
  | 1 => .byte
  | 2 => .half
  | 4 => .word
  | _ => .reserved

/-- The block counter CTR, 64 or 32 bits wide (10_state.md R30). -/
def blockCounter (s : State) : Nat :=
  if s.ctrl.ctr64 then (s.iv[1] ++ s.iv[0]).toNat else s.iv[0].toNat

/-- How many values the block counter has: 2^64 or 2^32 (00_scope.md R7). -/
def counterRange (c : Ctrl) : Nat := if c.ctr64 then 2 ^ 64 else 2 ^ 32

end Sys2Proof.Machine
end

