-- ==== Sys2Proof/Machine/Control.lean ====
section
/-! DEFINITION. The control commands NOP, CLRBUF and ZEROIZE (42_control_commands.md): issue and
completion. -/

namespace Sys2Proof.Machine

/-- complete_NOP: nothing (42_control_commands.md R140). -/
def completeNop (s : State) : State := s

/-- complete_CLRBUF (42_control_commands.md R141). -/
def completeClrbuf (s : State) : State :=
  { s with din := Vector.replicate 16 0#32, dout := Vector.replicate 16 0#32 }

/-- complete_ZEROIZE (42_control_commands.md R142). -/
def completeZeroize (s : State) : State :=
  { s with
    key := Vector.replicate 8 0#32
    iv := Vector.replicate 4 0#32
    din := Vector.replicate 16 0#32
    dout := Vector.replicate 16 0#32
    status := { s.status with keymask := 0#8, wrap := false } }

/-- NOP (42_control_commands.md R140): a CMD write of its word, with no check (log 7). -/
def execNop (s : State) : Outcome := .next (issue none .nop (answerNone s))

/-- CLRBUF (42_control_commands.md R141): a CMD write of its word, with no check (log 7). -/
def execClrbuf (s : State) : Outcome := .next (issue none .clrbuf (answerNone s))

/-- ZEROIZE (42_control_commands.md R142): a CMD write of its word, with no check (log 7). -/
def execZeroize (s : State) : Outcome := .next (issue none .zeroize (answerNone s))

end Sys2Proof.Machine
end

