-- ==== Sys2Proof/Machine/Block.lean ====
section
/-! DEFINITION. The ChaCha20 block function (40_block_function.md). -/

namespace Sys2Proof.Machine

/-- The quarter round on four words (40_block_function.md R101). -/
def quarterRound (a b c d : Word) : Word × Word × Word × Word :=
  let a := a + b
  let d := (d ^^^ a).rotateLeft 16
  let c := c + d
  let b := (b ^^^ c).rotateLeft 12
  let a := a + b
  let d := (d ^^^ a).rotateLeft 8
  let c := c + d
  let b := (b ^^^ c).rotateLeft 7
  (a, b, c, d)

/-- The quarter round on the words of the working state at four indices (40_block_function.md R101). -/
def quarterRoundAt (i j k l : Fin 16) (x : Vector Word 16) : Vector Word 16 :=
  match quarterRound x[i] x[j] x[k] x[l] with
  | (a, b, c, d) => (((x.set i a).set j b).set k c).set l d

/-- The column round (40_block_function.md R102). -/
def columnRound (x : Vector Word 16) : Vector Word 16 :=
  quarterRoundAt 3 7 11 15 (quarterRoundAt 2 6 10 14
    (quarterRoundAt 1 5 9 13 (quarterRoundAt 0 4 8 12 x)))

/-- The diagonal round (40_block_function.md R102). -/
def diagonalRound (x : Vector Word 16) : Vector Word 16 :=
  quarterRoundAt 3 4 9 14 (quarterRoundAt 2 7 8 13
    (quarterRoundAt 1 6 11 12 (quarterRoundAt 0 5 10 15 x)))

/-- The double round: columns, then diagonals (40_block_function.md R102). -/
def doubleRound (x : Vector Word 16) : Vector Word 16 := diagonalRound (columnRound x)

/-- `n` double rounds. -/
def repeatDoubleRound : Nat → Vector Word 16 → Vector Word 16
  | 0, x => x
  | n + 1, x => repeatDoubleRound n (doubleRound x)

/-- The initial state: constants, key, counter and nonce (40_block_function.md R103). -/
def initialState (key : Vector Word 8) (iv : Vector Word 4) : Vector Word 16 :=
  #v[Config.c0, Config.c1, Config.c2, Config.c3,
     key[0], key[1], key[2], key[3], key[4], key[5], key[6], key[7],
     iv[0], iv[1], iv[2], iv[3]]

/-- The feed-forward addition, word by word (40_block_function.md R104). -/
def feedForward (x s : Vector Word 16) : Vector Word 16 := Vector.zipWith (· + ·) x s

/-- The working state after the twenty rounds (40_block_function.md R104). -/
@[irreducible] def workedState (key : Vector Word 8) (iv : Vector Word 4) : Vector Word 16 :=
  repeatDoubleRound Config.doubleRounds (initialState key iv)

/-- The sixteen output words z of the block function (40_block_function.md R104). -/
@[irreducible] def blockWords (key : Vector Word 8) (iv : Vector Word 4) : Vector Word 16 :=
  feedForward (workedState key iv) (initialState key iv)

/-- The block function: 64 keystream bytes (40_block_function.md R104). -/
@[irreducible] def block (key : Vector Word 8) (iv : Vector Word 4) : Vector Byte 64 :=
  bytesOfFile (blockWords key iv)

end Sys2Proof.Machine
end

