-- ==== Sys2Proof/Machine/Keystream.lean ====
section
/-! DEFINITION. The keystream commands KS and XOR (41_keystream_commands.md): issue and completion. -/

namespace Sys2Proof.Machine

/-- The counter advance (41_keystream_commands.md R124). -/
def counterAdvance (s : State) : State :=
  if s.ctrl.ctr64 then
    let c : BitVec 64 := s.iv[1] ++ s.iv[0]
    let c' := c + 1#64
    { s with
      status := { s.status with wrap := s.status.wrap || decide (c = BitVec.allOnes 64) }
      iv := (s.iv.set 0 (c'.extractLsb' 0 32)).set 1 (c'.extractLsb' 32 32) }
  else
    { s with
      status := { s.status with wrap := s.status.wrap || decide (s.iv[0] = BitVec.allOnes 32) }
      iv := s.iv.set 0 (s.iv[0] + 1#32) }

/-- `ks <- Block(KEY, IV)`, with the working state it leaves in x (40_block_function.md R104,
10_state.md R33, log 9). -/
def loadKeystream (s : State) : State :=
  { s with x := workedState s.key s.iv, ks := block s.key s.iv }

/-- The first `len` bytes of `f`, then zeros (41_keystream_commands.md R125, R126). -/
def keepBytes (len : BitVec 7) (f : Nat → Byte) : Vector Word 16 :=
  fileOfBytes fun i => if i < len.toNat then f i else 0#8

/-- complete_KS (41_keystream_commands.md R125). -/
def completeKs (len : BitVec 7) (s : State) : State :=
  let s := loadKeystream s
  counterAdvance { s with dout := keepBytes len fun i => s.ks.getD i 0#8 }

/-- complete_XOR (41_keystream_commands.md R126). -/
def completeXor (len : BitVec 7) (s : State) : State :=
  let s := loadKeystream s
  counterAdvance { s with dout := keepBytes len fun i => fileByte s.din i ^^^ s.ks.getD i 0#8 }

/-- KS (41_keystream_commands.md R125): a CMD write of its word (30_encoding.md R93, log 7), with the
operand checks of R122. -/
def execKs (len : BitVec 7) (s : State) : Outcome :=
  .next (issue (checkKsXor len s.status) (.ks len) (answerNone s))

/-- XOR (41_keystream_commands.md R126): a CMD write of its word (30_encoding.md R93, log 7), with the
operand checks of R122. -/
def execXor (len : BitVec 7) (s : State) : Outcome :=
  .next (issue (checkKsXor len s.status) (.xor len) (answerNone s))

end Sys2Proof.Machine
end

