-- ==== Sys2Proof/Machine/Engine.lean ====
section
/-! DEFINITION. The engine and the clock (70_reset_and_hazards.md R205, 10_state.md R35), and the reset
line (70_reset_and_hazards.md R200, R201). -/

namespace Sys2Proof.Machine

/-- What the pending command's completion does of its own (70_reset_and_hazards.md R205). -/
def completeCmd (c : Cmd) (s : State) : State :=
  match c with
  | .nop => completeNop s
  | .ks len => completeKs len s
  | .xor len => completeXor len s
  | .clrbuf => completeClrbuf s
  | .zeroize => completeZeroize s

/-- `complete()`: one atomic update (70_reset_and_hazards.md R205). -/
def complete (c : Cmd) (s : State) : State := finish (completeCmd c s)

/-- One clock cycle: LEFT falls by one, and the completion happens when it reaches 0 (10_state.md R35,
log 2). Nothing happens while no command is pending or reset is asserted. -/
def clockCycle (s : State) : State :=
  if s.resetIn then s
  else
    match s.pend with
    | none => s
    | some c => if s.left ≤ 1 then complete c s else { s with left := s.left - 1 }

/-- Reset is asserted: every register and the hidden state take their reset values, and a command in
flight is discarded (70_reset_and_hazards.md R200). What the host holds (`resp`, `inputs`) stays
(log 6). -/
def assertReset (s : State) : State :=
  { State.reset with resetIn := true, resp := s.resp, inputs := s.inputs }

/-- Reset is released: the block accepts the next transaction (70_reset_and_hazards.md R201). -/
def releaseReset (s : State) : State := { s with resetIn := false }

end Sys2Proof.Machine
end

