-- ==== Sys2Proof/Machine/Access.lean ====
section
/-! DEFINITION. Host register access: RD and WR (43_register_access.md). -/

namespace Sys2Proof.Machine

/-- What a read of a register returns (43_register_access.md R150). DOUT reads 0 while BUSY = 1 (R151);
the reserved range reads 0. -/
def readReg (c : RegClass) (s : State) : Word :=
  match c with
  | .ctrl => ctrlWord s.ctrl
  | .status => statusWord s.status
  | .cmd => 0#32
  | .id => Config.idValue
  | .key _ => 0#32
  | .iv i => s.iv[i]
  | .din i => s.din[i]
  | .dout i => if s.status.busy then 0#32 else s.dout[i]
  | .reserved => 0#32

/-- RD (43_register_access.md R150). -/
def execRd (size : Size) (off : BitVec 8) (s : State) : Outcome :=
  if !plainAccess size off then .next (answer 0#32 (record .access s))
  else
    match classOf off with
    | .reserved => .next (answer 0#32 (record .access s))
    | c => .next (answer (readReg c s) s)

/-- write_CTRL (43_register_access.md R154). -/
def writeCtrl (v : Word) (s : State) : State := { s with ctrl := ctrlOfWord v }

/-- write_KEY (43_register_access.md R156). -/
def writeKey (i : Fin 8) (v : Word) (s : State) : State :=
  { s with
    key := s.key.set i v
    status := { s.status with keymask := s.status.keymask ||| BitVec.twoPow 8 i.val } }

/-- write_IV (43_register_access.md R157). -/
def writeIv (i : Fin 4) (v : Word) (s : State) : State :=
  { s with iv := s.iv.set i v, status := { s.status with wrap := false } }

/-- write_DIN (43_register_access.md R158). -/
def writeDin (i : Fin 16) (v : Word) (s : State) : State := { s with din := s.din.set i v }

/-- `issue(v)`: the word written to CMD is decoded and the command's meaning runs
(43_register_access.md R159). -/
def writeCmd (v : Word) (s : State) : Outcome :=
  match decodeCmd v with
  | .reject _ => .next (record .illegalCmd s)
  | .ok .nop => execNop s
  | .ok (.ks len) => execKs len s
  | .ok (.xor len) => execXor len s
  | .ok .clrbuf => execClrbuf s
  | .ok .zeroize => execZeroize s

/-- A write that BUSY refuses: dropped, and BUSY recorded (43_register_access.md R152). -/
def unlessBusy (s : State) (write : Outcome) : Outcome :=
  if s.status.busy then .next (record .busy s) else write

/-- WR with the answer already cleared (43_register_access.md R153). -/
def writeReg (c : RegClass) (v : Word) (s : State) : Outcome :=
  match c with
  | .id => .next (record .access s)
  | .dout _ => .next (record .access s)
  | .reserved => .next (record .access s)
  | .status => .next (writeStatus v s)
  | .ctrl => unlessBusy s (.next (writeCtrl v s))
  | .key i => unlessBusy s (.next (writeKey i v s))
  | .iv i => unlessBusy s (.next (writeIv i v s))
  | .din i => unlessBusy s (.next (writeDin i v s))
  | .cmd => unlessBusy s (writeCmd v s)

/-- WR (43_register_access.md R153). -/
def execWr (size : Size) (off : BitVec 8) (data : Word) (s : State) : Outcome :=
  if !plainAccess size off then .next (record .access (answerNone s))
  else writeReg (classOf off) data (answerNone s)

end Sys2Proof.Machine
end

