-- ==== Sys2Proof/Machine/Dispatch.lean ====
section
/-! DEFINITION. One arm per instruction. -/

namespace Sys2Proof.Machine

def exec (i : Instr) (s : State) : Host.Outcome State Fault Refusal :=
  match i with
  | .nop => Sys2Proof.Machine.execNop s
  | .ks len => Sys2Proof.Machine.execKs len s
  | .xor len => Sys2Proof.Machine.execXor len s
  | .clrbuf => Sys2Proof.Machine.execClrbuf s
  | .zeroize => Sys2Proof.Machine.execZeroize s
  | .rd size off => Sys2Proof.Machine.execRd size off s
  | .wr size off data => Sys2Proof.Machine.execWr size off data s

end Sys2Proof.Machine
end

