-- ==== Sys2Proof/Machine/Fetch.lean ====
section
/-! DEFINITION. The next input: which it is, and the input that the opcode table's numbering stands for
(logs 1, 2, 10). -/

namespace Sys2Proof.Machine

/-- The next input; with none waiting, a clock cycle with no transaction (log 2). -/
def nextInput (s : State) : Input :=
  match s.inputs with
  | [] => .clock
  | i :: _ => i

/-- The state with its next input taken away. -/
def takeInput (s : State) : State := { s with inputs := s.inputs.tail }

/-- The transaction that carries a code. -/
def inputOfCode (c : Code) : Input := .txn c.txn.1 c.txn.2

/-- The transaction that a number of the opcode table's stands for (log 10). A number that is no code
(`tableCode` answers none) is cut to a descriptor. -/
def tableInput (nbits w : Nat) : Input :=
  match tableCode nbits w with
  | some c => inputOfCode c
  | none => .txn (BitVec.ofNat 11 w) 0#32

end Sys2Proof.Machine
end

