-- ==== Sys2Proof/Machine/Wait.lean ====
section
/-! DEFINITION. The host's `wait` (30_encoding.md R94): STATUS is read until its bit 0 is 0. -/

namespace Sys2Proof.Machine

/-- `wait` ends when the STATUS word just read has bit 0 = 0 (30_encoding.md R94). -/
def waitEnds (s : State) : Bool :=
  match s.resp with
  | some v => !v.getLsbD 0
  | none => false

/-- `wait` goes on: the next read of STATUS comes after at least one clock cycle (log 15). -/
def waitAgain (gaps : List Nat) (s : State) : State :=
  { s with inputs := List.replicate (gaps.headD 0 + 1) .clock ++ .wait gaps.tail :: s.inputs }

/-- One turn of `wait`: `rd STATUS`, and again while bit 0 of what it returned is 1
(30_encoding.md R94). -/
def hostWait (gaps : List Nat) (s : State) : Outcome :=
  match exec (.rd .word 0x04#8) s with
  | .next t => .next (if waitEnds t then t else waitAgain gaps t)
  | .fault r => .fault r
  | .refused r => .refused r

end Sys2Proof.Machine
end

