-- ==== Sys2Proof/Machine/Step.lean ====
section
/-! DEFINITION. The step: a host step (a transaction, or one turn of `wait`), a clock cycle (which may be an
engine step), or an event of the reset line (00_scope.md R13, 70_reset_and_hazards.md R206). -/

namespace Sys2Proof.Machine

/-- One step takes the next input. A transaction is decoded and runs, and `wait` reads STATUS; while reset
is asserted no transaction is accepted (70_reset_and_hazards.md R201). -/
def step (s : State) : Host.Outcome State Fault Refusal :=
  match nextInput s with
  | .txn desc data =>
    if s.resetIn then .fault .transactionDuringReset else exec (decodeTxn desc data) (takeInput s)
  | .wait gaps =>
    if s.resetIn then .fault .transactionDuringReset else hostWait gaps (takeInput s)
  | .clock => .next (clockCycle (takeInput s))
  | .assertReset => .next (assertReset (takeInput s))
  | .releaseReset => .next (releaseReset (takeInput s))

/-- `s` with the instruction `w` as the transaction that the next step accepts (log 10). -/
def State.withFetchWord (s : State) (nbits w : Nat) : State :=
  { s with resetIn := false, inputs := tableInput nbits w :: s.inputs }

end Sys2Proof.Machine
end

