-- ==== Sys2Proof/Machine/Pseudo.lean ====
section
/-! DEFINITION. The host's side: bus accesses by address (00_scope.md R12) and the pseudo-instructions,
each the list of transactions it expands to (30_encoding.md R92, R93, R94). -/

namespace Sys2Proof.Machine

/-- A transaction of the host on the window. -/
def hostTxn (we : Bool) (size : Size) (off : BitVec 8) (data : Word) : Input :=
  .txn (encodeDesc we size off) data

/-- The bus read of `n` bytes at byte address `addr` (00_scope.md R12), if it falls in the window. -/
def busRead (addr n : Nat) : Option Input :=
  (offsetOfBusAddress addr).map fun off => hostTxn false (sizeOfBytes n) off 0#32

/-- The bus write of `n` bytes at byte address `addr` (00_scope.md R12), if it falls in the window. -/
def busWrite (addr n : Nat) (v : Word) : Option Input :=
  (offsetOfBusAddress addr).map fun off => hostTxn true (sizeOfBytes n) off v

/-- `rd @off` (30_encoding.md R92). -/
def rdInput (off : BitVec 8) : Input := hostTxn false .word off 0#32

/-- `wr @off, v` (30_encoding.md R92). -/
def wrInput (off : BitVec 8) (v : Word) : Input := hostTxn true .word off v

/-- `nop`, `ks n`, `xor n`, `clrbuf`, `zeroize`: one `wr CMD` of the command's word
(30_encoding.md R93). -/
def cmdInput (c : Cmd) : Input := wrInput cmdOffset (encodeCmd c)

/-- Word `i` of a byte string, little-endian; bytes past its end are 0 (30_encoding.md R94). -/
def wordOfBytes (b : List Byte) (i : Nat) : Word :=
  le32 (b.getD (4 * i) 0#8) (b.getD (4 * i + 1) 0#8) (b.getD (4 * i + 2) 0#8) (b.getD (4 * i + 3) 0#8)

/-- Writes of `n` words to consecutive registers from an offset, in order. -/
def wrWords (off n : Nat) (f : Nat → Word) : List Input :=
  (List.range n).map fun i => wrInput (BitVec.ofNat 8 (off + 4 * i)) (f i)

/-- `ldkey k[0..31]` (30_encoding.md R94). -/
def ldkey (k : List Byte) : List Input := wrWords 0x20 8 (wordOfBytes k)

/-- `ldiv64 c, n[0..7]` (30_encoding.md R94). -/
def ldiv64 (c : BitVec 64) (n : List Byte) : List Input :=
  [wrInput 0x40#8 (c.extractLsb' 0 32), wrInput 0x44#8 (c.extractLsb' 32 32),
   wrInput 0x48#8 (wordOfBytes n 0), wrInput 0x4C#8 (wordOfBytes n 1)]

/-- `ldiv96 c, n[0..11]` (30_encoding.md R94). -/
def ldiv96 (c : Word) (n : List Byte) : List Input :=
  [wrInput 0x40#8 c, wrInput 0x44#8 (wordOfBytes n 0),
   wrInput 0x48#8 (wordOfBytes n 1), wrInput 0x4C#8 (wordOfBytes n 2)]

/-- `lddin b[0..63]`; bytes past the message are 0 (30_encoding.md R94). -/
def lddin (b : List Byte) : List Input := wrWords 0x80 16 (wordOfBytes b)

/-- `rddout` (30_encoding.md R94). -/
def rddout : List Input := (List.range 16).map fun i => rdInput (BitVec.ofNat 8 (0xC0 + 4 * i))

/-- `clrst` (30_encoding.md R94). -/
def clrst : List Input := [wrInput 0x04#8 0x0000000E#32]

/-- `mode64`, with CTRL the value last written (30_encoding.md R94). -/
def mode64 (ctrl : Word) : List Input := [wrInput 0x00#8 ((ctrl &&& 6#32) ||| 1#32)]

/-- `mode32`, with CTRL the value last written (30_encoding.md R94). -/
def mode32 (ctrl : Word) : List Input := [wrInput 0x00#8 (ctrl &&& 6#32)]

/-- `wait`: `rd STATUS` repeated until its bit 0 is 0 (30_encoding.md R94), a loop of the host that `step`
runs (Machine/Wait.lean). `gaps` is the host's pace (log 15). -/
def wait (gaps : List Nat) : List Input := [.wait gaps]

end Sys2Proof.Machine
end

