-- ==== Sys2Proof/Safety.lean ====
section
/-! DEFINITION. The terms in which claims are made: the invariant, safe schedules, the errors of a
transaction in their order, the host's view, and the running of a command or a message. -/

namespace Sys2Proof.Machine

/-! ### The invariant -/

/-- What holds at reset and after every step. -/
structure Inv (s : State) : Prop where
  /-- "ERRV = 0 implies ERRCODE = 0" (10_state.md R25). -/
  noErrorNoCode : s.status.errv = false → s.status.errcode = 0#3
  /-- "ERRCODE is never 7" (10_state.md R25). -/
  codeNotSeven : s.status.errcode ≠ 7#3
  /-- "BUSY = 1 exactly when a pending command exists" (10_state.md R25). -/
  busyIffPending : s.status.busy = s.pend.isSome
  /-- LEFT is an integer 0..CC20_LATENCY (10_state.md R35). -/
  leftBound : s.left ≤ Config.latency
  /-- LEFT counts exactly while a command is pending (10_state.md R35). -/
  leftIffPending : s.left = 0 ↔ s.pend = none
  /-- Acceptance clears DONE and completion sets it (10_state.md R24). -/
  busyNotDone : s.status.busy = true → s.status.done = false
  /-- The working state is zero between commands (10_state.md R33). -/
  xZero : s.x = Vector.replicate 16 0#32
  /-- The keystream buffer is zero between commands (10_state.md R33). -/
  ksZero : s.ks = Vector.replicate 64 0#8
  /-- WRAP is never 1 without a whole key (60_exceptions.md R173). -/
  wrapNeedsKey : s.status.wrap = true → s.status.keymask = 0xFF#8
  /-- A pending KS or XOR passed its checks and they still hold (41_keystream_commands.md R122). -/
  pendingKeystream : ∀ len, s.pend = some (.ks len) ∨ s.pend = some (.xor len) →
    legalLen len = true ∧ s.status.keymask = 0xFF#8 ∧ s.status.wrap = false
  /-- While reset is asserted the block keeps its reset values (70_reset_and_hazards.md R200, R201). -/
  resetHolds : s.resetIn = true → assertReset s = s

/-! ### Safe schedules -/

/-- No transaction comes, and no `wait` runs, while reset is asserted (70_reset_and_hazards.md R201); the
first argument says whether it is asserted now. -/
def safeInputs : Bool → List Input → Bool
  | _, [] => true
  | r, .txn _ _ :: rest => !r && safeInputs r rest
  | r, .wait _ :: rest => !r && safeInputs r rest
  | r, .clock :: rest => safeInputs r rest
  | _, .assertReset :: rest => safeInputs true rest
  | _, .releaseReset :: rest => safeInputs false rest

/-- A state whose waiting inputs are safe. -/
def State.safe (s : State) : Prop := safeInputs s.resetIn s.inputs = true

/-! ### The errors of one transaction (60_exceptions.md R170, R173) -/

/-- The command word that an instruction writes to CMD, if it writes one. -/
def commandWord : Instr → Option Word
  | .rd _ _ => none
  | .wr _ off v => if off = cmdOffset then some v else none
  | .nop => some (encodeCmd .nop)
  | .ks len => some (encodeCmd (.ks len))
  | .xor len => some (encodeCmd (.xor len))
  | .clrbuf => some (encodeCmd .clrbuf)
  | .zeroize => some (encodeCmd .zeroize)

/-- LEN of the KS or XOR that an instruction issues, if it issues one. -/
def keystreamLen (i : Instr) : Option (BitVec 7) :=
  match (commandWord i).map decodeCmd with
  | some (.ok (.ks len)) => some len
  | some (.ok (.xor len)) => some len
  | _ => none

/-- Offsets whose read records ACCESS: misaligned or reserved (60_exceptions.md R170). -/
def readRefused (off : Nat) : Bool :=
  decide (off % 4 ≠ 0) || (decide (0x10 ≤ off) && decide (off < 0x20))
    || (decide (0x50 ≤ off) && decide (off < 0x80))

/-- Offsets whose write records ACCESS: those, ID and DOUT (60_exceptions.md R170). -/
def writeRefused (off : Nat) : Bool :=
  readRefused off || decide (off = 0x0C) || decide (0xC0 ≤ off)

/-- ACCESS applies (60_exceptions.md R170). -/
def accessApplies : Instr → Bool
  | .rd size off => decide (size ≠ .word) || readRefused off.toNat
  | .wr size off _ => decide (size ≠ .word) || writeRefused off.toNat
  | .nop => false
  | .ks _ => false
  | .xor _ => false
  | .clrbuf => false
  | .zeroize => false

/-- BUSY applies: a write other than to STATUS while BUSY = 1 (60_exceptions.md R170). -/
def busyApplies (i : Instr) (st : Status) : Bool :=
  st.busy &&
    match i with
    | .rd _ _ => false
    | .wr _ off _ => decide (off ≠ 0x04#8)
    | .nop => true
    | .ks _ => true
    | .xor _ => true
    | .clrbuf => true
    | .zeroize => true

/-- ILLEGAL_CMD applies (60_exceptions.md R170). -/
def illegalApplies (i : Instr) : Bool :=
  match (commandWord i).map decodeCmd with
  | some (.reject _) => true
  | _ => false

/-- The first error that applies, in the order of 60_exceptions.md R173. -/
def firstError (i : Instr) (st : Status) : Option Err :=
  if accessApplies i then some .access
  else if busyApplies i st then some .busy
  else if illegalApplies i then some .illegalCmd
  else
    match keystreamLen i with
    | none => none
    | some len =>
      if len.toNat = 0 ∨ 64 < len.toNat then some .badLen
      else if st.keymask ≠ 0xFF#8 then some .noKey
      else if st.wrap then some .ctrExhausted
      else none

/-- STATUS with an error of code `n` recorded: the first error is kept, a later one sets ERROVF only
(60_exceptions.md R172). -/
def withError (n : BitVec 3) (st : Status) : Status :=
  { st with
    errv := true
    errcode := if st.errv then st.errcode else n
    errovf := st.errovf || st.errv }

/-- What a refused instruction returns to the host: 0 from a read, nothing from a write
(20_memory.md R62, R63). -/
def refusedResp : Instr → Option Word
  | .rd _ _ => some 0#32
  | .wr _ _ _ => none
  | .nop => none
  | .ks _ => none
  | .xor _ => none
  | .clrbuf => none
  | .zeroize => none

/-! ### What the host can see -/

/-- `t` with the secrets of `s` that no register shows: KEY, the working state and the keystream
buffer (10_state.md R27, R33). -/
def withSecretsOf (s t : State) : State := { t with key := s.key, x := s.x, ks := s.ks }

/-- The two states differ in those secrets only. -/
def sameButSecrets (s t : State) : Prop := withSecretsOf s t = s

/-! ### Running a command, a message -/

/-- `n` clock cycles with no transaction. -/
def clocks : Nat → State → State
  | 0, s => s
  | n + 1, s => clocks n (clockCycle s)

/-- The state after an instruction, where it answers one. -/
def after (i : Instr) (s : State) : State :=
  match exec i s with
  | .next t => t
  | .fault _ => s
  | .refused _ => s

/-- No command is in flight and reset is released: the block is idle (70_reset_and_hazards.md R201). -/
def idle (s : State) : Prop := s.status.busy = false ∧ s.resetIn = false

/-- The checks of KS and XOR but LEN hold (41_keystream_commands.md R122). -/
def keystreamReady (s : State) : Prop :=
  idle s ∧ s.status.keymask = 0xFF#8 ∧ s.status.wrap = false

/-- A command is issued and runs for CC20_LATENCY cycles (70_reset_and_hazards.md R211). -/
def runCommand (c : Cmd) (s : State) : State := clocks Config.latency (after c.toInstr s)

/-- IV with the block counter `c` (10_state.md R29, R30). -/
def ivWithCounter (ctrl : Ctrl) (iv : Vector Word 4) (c : Nat) : Vector Word 4 :=
  if ctrl.ctr64 then (iv.set 0 (BitVec.ofNat 32 c)).set 1 (BitVec.ofNat 32 (c / 2 ^ 32))
  else iv.set 0 (BitVec.ofNat 32 c)

/-- The sixteen writes of an input block to DIN, in order (30_encoding.md R94). -/
def writeBlock (b : Vector Word 16) (s : State) : State :=
  (List.finRange 16).foldl (fun t i => after (.wr .word (BitVec.ofNat 8 (0x80 + 4 * i.val)) b[i]) t) s

/-- Block `j` of a message as DIN words; bytes past the message are 0 (30_encoding.md R94). -/
def messageBlock (m : List Byte) (j : Nat) : Vector Word 16 :=
  tabulate16 fun i => wordOfBytes m (16 * j + i)

/-- LEN of command `j`: min(64, L − 64j) (41_keystream_commands.md R129). -/
def messageLen (m : List Byte) (j : Nat) : BitVec 7 := BitVec.ofNat 7 (min 64 (m.length - 64 * j))

/-- One command of a message: load DIN, `xor`, `wait`. -/
def xorBlock (m : List Byte) (j : Nat) (s : State) : State :=
  runCommand (.xor (messageLen m j)) (writeBlock (messageBlock m j) s)

/-- `n` commands of a message from command `j` on: the bytes read from DOUT and the last state. -/
def xorBlocks (m : List Byte) : Nat → Nat → State → List Byte × State
  | 0, _, s => ([], s)
  | n + 1, j, s =>
    let t := xorBlock m j s
    let rest := xorBlocks m n (j + 1) t
    ((List.range (messageLen m j).toNat).map (fileByte t.dout) ++ rest.1, rest.2)

/-- A message of L bytes takes ⌈L/64⌉ XOR commands (41_keystream_commands.md R129). -/
def messageCommands (m : List Byte) : Nat := (m.length + 63) / 64

/-- Encryption or decryption of a message (41_keystream_commands.md R129). -/
def xorMessage (m : List Byte) (s : State) : List Byte × State := xorBlocks m (messageCommands m) 0 s

end Sys2Proof.Machine
end

