-- ==== Sys2Proof/Certificates/Slice0/Obligations.lean ====
section
/-! DEFINITION. The statements for the provers. Throughout, `resp` holds what RD returned, or nothing where
WR returns nothing (the signatures of 43_register_access.md R150 and R153; log 5 says how the model keeps
it). -/

open Sys2Proof Sys2Proof.Machine

/-! ### Encoding -/

/-- Decoding the encoding of any instruction, well-formed or not, gives it back, with every operand at
every value (30_encoding.md, section 1). -/
def Obligations.DecodeOfEncode : Prop := ∀ i : Instr, decode (encode i) = .ok i

/-- The other direction: a 32-bit word decodes to a command exactly if it is that command's word, and
every descriptor is the encoding of what it decodes to (a read's data word is 0). -/
def Obligations.EveryCodeHasOneMeaning : Prop :=
  (∀ (w : Word) (c : Cmd), decodeCmd w = .ok c ↔ encodeCmd c = w) ∧
  ∀ (d : BitVec 11) (data : Word),
    encode (decodeTxn d data) = .host d (if d.toNat / 1024 = 1 then data else 0#32)

/-- 30_encoding.md R87: the command decoder, with the fields written as arithmetic on the word. -/
def Obligations.CommandDecoder : Prop :=
  ∀ (w : Word) (rsv1 len rsv0 op : Nat), rsv1 = w.toNat / 32768 → len = w.toNat / 256 % 128 →
    rsv0 = w.toNat / 16 % 16 → op = w.toNat % 16 →
    (rsv1 ≠ 0 ∨ rsv0 ≠ 0 → ∃ r, decodeCmd w = .reject r) ∧
    (rsv1 = 0 → rsv0 = 0 →
      (op = 0 → len = 0 → decodeCmd w = .ok .nop) ∧
      (op = 0 → len ≠ 0 → ∃ r, decodeCmd w = .reject r) ∧
      (op = 1 → decodeCmd w = .ok (.ks (BitVec.ofNat 7 len))) ∧
      (op = 2 → decodeCmd w = .ok (.xor (BitVec.ofNat 7 len))) ∧
      (op = 3 → len = 0 → decodeCmd w = .ok .clrbuf) ∧
      (op = 3 → len ≠ 0 → ∃ r, decodeCmd w = .reject r) ∧
      (op = 4 → len = 0 → decodeCmd w = .ok .zeroize) ∧
      (op = 4 → len ≠ 0 → ∃ r, decodeCmd w = .reject r) ∧
      (5 ≤ op → ∃ r, decodeCmd w = .reject r))

/-- 30_encoding.md R86: which words are illegal; an illegal word written to CMD records ILLEGAL_CMD and
has no other effect; every other word is one command's. -/
def Obligations.IllegalCommandWords : Prop :=
  (∀ w : Word, (∃ r, decodeCmd w = .reject r) ↔
    (w.toNat / 16 % 16 ≠ 0 ∨ w.toNat / 32768 ≠ 0 ∨ 5 ≤ w.toNat % 16 ∨
      ((w.toNat % 16 = 0 ∨ w.toNat % 16 = 3 ∨ w.toNat % 16 = 4) ∧ w.toNat / 256 % 128 ≠ 0))) ∧
  (∀ (w : Word) (r : Reject) (s : State), decodeCmd w = .reject r → s.status.busy = false →
    exec (.wr .word 0x08#8 w) s = .next { s with resp := none, status := withError 2#3 s.status }) ∧
  ∀ w : Word, (∀ r, decodeCmd w ≠ .reject r) → ∃! c : Cmd, encodeCmd c = w

/-- 30_encoding.md R83: the assembled command words. -/
def Obligations.CommandWords : Prop :=
  encodeCmd .nop = 0x00000000#32 ∧
  (∀ n : BitVec 7, encodeCmd (.ks n) = 0x00000001#32 ||| (n.setWidth 32 <<< 8)) ∧
  (∀ n : BitVec 7, encodeCmd (.xor n) = 0x00000002#32 ||| (n.setWidth 32 <<< 8)) ∧
  encodeCmd .clrbuf = 0x00000003#32 ∧ encodeCmd .zeroize = 0x00000004#32 ∧
  encodeCmd (.ks 32#7) = 0x00002001#32 ∧ encodeCmd (.ks 64#7) = 0x00004001#32 ∧
  encodeCmd (.xor 50#7) = 0x00003202#32 ∧ encodeCmd (.xor 64#7) = 0x00004002#32

/-- Words written out from 30_encoding.md R80 and R84, one for each row of the opcode table and one for
each kind of rejection. -/
def Obligations.WrittenWordsDecode : Prop :=
  decode (.cmd 0b00000000000000000_0000000_0000_0000#32) = .ok .nop ∧
  decode (.cmd 0b00000000000000000_0100000_0000_0001#32) = .ok (.ks 32#7) ∧
  decode (.cmd 0b00000000000000000_0110010_0000_0010#32) = .ok (.xor 50#7) ∧
  decode (.cmd 0b00000000000000000_0000000_0000_0011#32) = .ok .clrbuf ∧
  decode (.cmd 0b00000000000000000_0000000_0000_0100#32) = .ok .zeroize ∧
  decode (.host 0b0_10_00000100#11 0#32) = .ok (.rd .word 0x04#8) ∧
  decode (.host 0b1_10_00001000#11 7#32) = .ok (.wr .word 0x08#8 7#32) ∧
  decode (.cmd 0b00000000000000000_0000000_1000_0001#32) = .reject .reservedBits ∧
  decode (.cmd 0b00000000000000000_0000000_0000_0101#32) = .reject .reservedOp ∧
  decode (.cmd 0b00000000000000000_1000000_0000_0000#32) = .reject .lenNotZero

/-- 30_encoding.md R85: descriptor decode, with the fields written as arithmetic on the descriptor; any
other SIZE, or a misaligned offset, is refused with ACCESS. -/
def Obligations.DescriptorDecode : Prop :=
  (∀ (d : BitVec 11) (v : Word), d.toNat / 256 % 4 = 2 → d.toNat % 4 = 0 →
    (d.toNat / 1024 = 0 → decodeTxn d v = .rd .word (BitVec.ofNat 8 (d.toNat % 256))) ∧
    (d.toNat / 1024 = 1 → decodeTxn d v = .wr .word (BitVec.ofNat 8 (d.toNat % 256)) v)) ∧
  (∀ (d : BitVec 11) (v : Word) (s : State), d.toNat / 256 % 4 ≠ 2 ∨ d.toNat % 4 ≠ 0 →
    exec (decodeTxn d v) s =
      .next { s with
        resp := if d.toNat / 1024 = 0 then some 0#32 else none
        status := withError 6#3 s.status }) ∧
  (∀ v : Word, decodeTxn 0x204#11 v = .rd .word 0x04#8 ∧ decodeTxn 0x608#11 v = .wr .word 0x08#8 v ∧
    decodeTxn 0x620#11 v = .wr .word 0x20#8 v ∧ decodeTxn 0x2FC#11 v = .rd .word 0xFC#8)

/-! ### The step -/

/-- When the transaction waiting carries a code that decodes to `i`, the step is `i` at the state with
that input taken. A command's code is the CMD write of its word. The second clause says the same of the
instruction that `withFetchWord` places (log 10). -/
def Obligations.StepRunsDecodedInstruction : Prop :=
  (∀ (s : State) (c : Code) (i : Instr) (rest : List Input), decode c = .ok i →
    s.inputs = inputOfCode c :: rest → s.resetIn = false →
    step s = exec i { s with inputs := rest }) ∧
  ∀ (s : State) (nbits w : Nat) (c : Code) (i : Instr), tableCode nbits w = some c →
    decode c = .ok i → step (s.withFetchWord nbits w) = exec i { s with resetIn := false }

/-- The other steps: a clock cycle, also when nothing waits (log 2); one turn of the host's `wait`, which
reads STATUS and goes on while bit 0 of it is 1 (30_encoding.md R94; the pace is the model's, log 15); the
two events of the reset line (log 6); and a transaction or `wait` while reset is asserted, which is not
accepted (the named fault is the model's form of 'stuck', log 6). After the release the next one is. -/
def Obligations.OtherSteps : Prop :=
  ∀ (s : State) (rest : List Input),
    (s.inputs = [] → step s = .next (clockCycle s)) ∧
    (s.inputs = .clock :: rest → step s = .next (clockCycle { s with inputs := rest })) ∧
    (s.inputs = .assertReset :: rest →
      step s = .next { State.reset with resetIn := true, resp := s.resp, inputs := rest }) ∧
    (s.inputs = .releaseReset :: rest → step s = .next { s with resetIn := false, inputs := rest }) ∧
    (∀ d v, s.inputs = .txn d v :: rest → s.resetIn = true →
      step s = .fault .transactionDuringReset) ∧
    (∀ gaps, s.inputs = .wait gaps :: rest →
      (s.resetIn = true → step s = .fault .transactionDuringReset) ∧
      (s.resetIn = false → s.status.busy = false →
        step s = .next { s with resp := some (statusWord s.status), inputs := rest }) ∧
      (s.resetIn = false → s.status.busy = true →
        step s = .next { s with
          resp := some (statusWord s.status)
          inputs := List.replicate (gaps.headD 0 + 1) .clock ++ .wait gaps.tail :: rest })) ∧
    ∀ d v, s.inputs = .releaseReset :: .txn d v :: rest →
      ∃ t, step s = .next t ∧ step t = exec (decodeTxn d v) { s with resetIn := false, inputs := rest }

/-- 30_encoding.md R93: a command mnemonic is one CMD write of the command's word, in every state. -/
def Obligations.CommandIsOneCmdWrite : Prop :=
  ∀ (c : Cmd) (s : State),
    exec c.toInstr s = exec (.wr .word 0x08#8 (encodeCmd c)) s ∧
    cmdInput c = .txn 0x608#11 (encodeCmd c)

/-! ### Errors -/

/-- 60_exceptions.md R172 with the codes of R170: what recording an error does. -/
def Obligations.ErrorRecording : Prop :=
  ∀ (e : Err) (s : State),
    (s.status.errv = false →
      record e s = { s with status := { s.status with errv := true, errcode := errCode e } }) ∧
    (s.status.errv = true → record e s = { s with status := { s.status with errovf := true } }) ∧
    errCode e = (match e with
      | .busy => 1#3 | .illegalCmd => 2#3 | .badLen => 3#3 | .noKey => 4#3 | .ctrExhausted => 5#3
      | .access => 6#3)

/-- The first error of 60_exceptions.md R173's order is the one recorded, and the refused instruction has
no other effect; a read returns 0. An instruction to which no error applies records none (only the STATUS
write then changes the error bits). -/
def Obligations.FirstErrorIsRecorded : Prop :=
  (∀ (i : Instr) (s : State) (e : Err), firstError i s.status = some e →
    exec i s = .next { s with resp := refusedResp i, status := withError (errCode e) s.status }) ∧
  ∀ (i : Instr) (s : State), firstError i s.status = none →
    ∃ t, exec i s = .next t ∧
      ((∀ size v, i ≠ .wr size 0x04#8 v) →
        t.status.errv = s.status.errv ∧ t.status.errcode = s.status.errcode ∧
        t.status.errovf = s.status.errovf)

/-- 20_memory.md R62, and the widths of R63: a misaligned or narrow transaction is refused. -/
def Obligations.MisalignedOrNarrowRefused : Prop :=
  ∀ (size : Size) (off : BitVec 8) (v : Word) (s : State), off.toNat % 4 ≠ 0 ∨ size ≠ .word →
    exec (.rd size off) s =
      .next { s with resp := some 0#32, status := withError 6#3 s.status } ∧
    exec (.wr size off v) s = .next { s with resp := none, status := withError 6#3 s.status }

/-! ### Reads -/

/-- 43_register_access.md R150: what a read of each register returns, and that it changes nothing. -/
def Obligations.ReadRegister : Prop :=
  (∀ (off : BitVec 8) (v : Word), decodeTxn (0x200#11 ||| off.setWidth 11) v = .rd .word off) ∧
  ∀ s : State,
    (∀ (size : Size) (off : BitVec 8), size ≠ .word ∨ off.toNat % 4 ≠ 0 ∨
        (0x10 ≤ off.toNat ∧ off.toNat < 0x20) ∨ (0x50 ≤ off.toNat ∧ off.toNat < 0x80) →
      exec (.rd size off) s =
        .next { s with resp := some 0#32, status := withError 6#3 s.status }) ∧
    exec (.rd .word 0x00#8) s =
      .next { s with resp := some (BitVec.ofNat 32
        (s.ctrl.ctr64.toNat + 2 * s.ctrl.doneIe.toNat + 4 * s.ctrl.errIe.toNat)) } ∧
    exec (.rd .word 0x04#8) s =
      .next { s with resp := some (BitVec.ofNat 32
        (s.status.busy.toNat + 2 * s.status.done.toNat + 4 * s.status.errv.toNat
          + 8 * s.status.errovf.toNat + 16 * s.status.errcode.toNat
          + 256 * (decide (s.status.keymask = 0xFF#8)).toNat + 512 * s.status.wrap.toNat
          + 65536 * s.status.keymask.toNat)) } ∧
    exec (.rd .word 0x08#8) s = .next { s with resp := some 0#32 } ∧
    exec (.rd .word 0x0C#8) s = .next { s with resp := some 0xCC200100#32 } ∧
    (∀ i : Fin 8, exec (.rd .word (BitVec.ofNat 8 (0x20 + 4 * i.val))) s =
      .next { s with resp := some 0#32 }) ∧
    (∀ i : Fin 4, exec (.rd .word (BitVec.ofNat 8 (0x40 + 4 * i.val))) s =
      .next { s with resp := some s.iv[i] }) ∧
    (∀ i : Fin 16, exec (.rd .word (BitVec.ofNat 8 (0x80 + 4 * i.val))) s =
      .next { s with resp := some s.din[i] }) ∧
    (∀ i : Fin 16, exec (.rd .word (BitVec.ofNat 8 (0xC0 + 4 * i.val))) s =
      .next { s with resp := some (if s.status.busy then 0#32 else s.dout[i]) })

/-- 43_register_access.md R151: DOUT reads 0 while BUSY = 1 and records no error; acceptance and a NOP's
completion keep DOUT, which then reads back; other registers read their current value. -/
def Obligations.DoutReadsZeroWhileBusy : Prop :=
  ∀ s : State, s.status.busy = true →
    (∀ i : Fin 16, exec (.rd .word (BitVec.ofNat 8 (0xC0 + 4 * i.val))) s =
      .next { s with resp := some 0#32 }) ∧
    (∀ i : Fin 4, exec (.rd .word (BitVec.ofNat 8 (0x40 + 4 * i.val))) s =
      .next { s with resp := some s.iv[i] }) ∧
    (∀ i : Fin 16, exec (.rd .word (BitVec.ofNat 8 (0x80 + 4 * i.val))) s =
      .next { s with resp := some s.din[i] }) ∧
    exec (.rd .word 0x00#8) s = .next { s with resp := some (ctrlWord s.ctrl) } ∧
    exec (.rd .word 0x04#8) s = .next { s with resp := some (statusWord s.status) } ∧
    (∀ (c : Cmd) (i : Fin 16), (after c.toInstr s).dout = s.dout ∧
      exec (.rd .word (BitVec.ofNat 8 (0xC0 + 4 * i.val))) (complete .nop s) =
        .next { complete .nop s with resp := some s.dout[i] }) ∧
    ∀ (c : Cmd) (t : State), t.status.busy = false → exec c.toInstr t = .next s →
      s.dout = t.dout ∧ s.iv = t.iv

/-- A read changes nothing but the answer and, where it is refused, the error bits; read again, it
returns the same (20_memory.md, section 4). -/
def Obligations.ReadsHaveNoSideEffect : Prop :=
  ∀ (size : Size) (off : BitVec 8) (s t u : State), exec (.rd size off) s = .next t →
    exec (.rd size off) t = .next u →
    t = { s with resp := t.resp, status := t.status } ∧
    (accessApplies (.rd size off) = false → t.status = s.status) ∧
    (accessApplies (.rd size off) = true → t.status = withError 6#3 s.status) ∧
    u.resp = t.resp ∧ t.resp ≠ none

/-- 10_state.md R22: ID. -/
def Obligations.IdIsConstant : Prop :=
  (∀ s : State, exec (.rd .word 0x0C#8) s = .next { s with resp := some 0xCC200100#32 }) ∧
  (∀ (s : State) (v : Word), exec (.wr .word 0x0C#8 v) s =
    .next { s with resp := none, status := withError 6#3 s.status }) ∧
  (0xCC200100#32).extractLsb' 16 16 = 0xCC20#16 ∧ (0xCC200100#32).extractLsb' 8 8 = 0x01#8 ∧
  (0xCC200100#32).extractLsb' 0 8 = 0x00#8

/-- The register map and its inverse: each register has one offset and each offset names at most one
register (10_state.md, sections 2 and 7). -/
def Obligations.RegisterMap : Prop :=
  ∀ (off : BitVec 8) (c : RegClass), c ≠ .reserved → (classOf off = c ↔ offsetOf c = some off)

/-! ### Writes -/

/-- 43_register_access.md R152: writes while BUSY = 1. -/
def Obligations.WriteWhileBusy : Prop :=
  ∀ (s : State) (v : Word), s.status.busy = true →
    (∀ off : BitVec 8, off.toNat % 4 = 0 →
      off.toNat = 0x00 ∨ off.toNat = 0x08 ∨ (0x20 ≤ off.toNat ∧ off.toNat < 0x50) ∨
        (0x80 ≤ off.toNat ∧ off.toNat < 0xC0) →
      exec (.wr .word off v) s = .next { s with resp := none, status := withError 1#3 s.status }) ∧
    exec (.wr .word 0x04#8 v) s =
      .next { s with
        resp := none
        status := { s.status with
          done := s.status.done && !v.getLsbD 1
          errv := s.status.errv && !v.getLsbD 2
          errcode := if v.getLsbD 2 then 0#3 else s.status.errcode
          errovf := s.status.errovf && !v.getLsbD 3 } } ∧
    (∀ off : BitVec 8, off.toNat % 4 = 0 →
      off.toNat = 0x0C ∨ (0x10 ≤ off.toNat ∧ off.toNat < 0x20) ∨
        (0x50 ≤ off.toNat ∧ off.toNat < 0x80) ∨ 0xC0 ≤ off.toNat →
      exec (.wr .word off v) s = .next { s with resp := none, status := withError 6#3 s.status })

/-- 43_register_access.md R154: write_CTRL. -/
def Obligations.WriteCtrl : Prop :=
  (∀ (s : State) (v : Word), s.status.busy = false →
    ∃ t, exec (.wr .word 0x00#8 v) s = .next t ∧
      t = { s with
        resp := none
        ctrl := { ctr64 := v.getLsbD 0, doneIe := v.getLsbD 1, errIe := v.getLsbD 2 } } ∧
      irq t = (s.status.done && v.getLsbD 1 || s.status.errv && v.getLsbD 2) ∧
      (v.getLsbD 0 = true → s.iv[0] = 0xFFFFFFFF#32 →
        (counterAdvance t).iv[1] = s.iv[1] + 1#32) ∧
      (v.getLsbD 0 = false → (counterAdvance t).iv[1] = s.iv[1]) ∧
      exec (.rd .word 0x00#8) t = .next { t with resp := some (v &&& 7#32) }) ∧
  ∀ s : State, s.status.busy = false →
    exec (.wr .word 0x00#8 0xFFFFFFF8#32) s =
      .next { s with resp := none, ctrl := { ctr64 := false, doneIe := false, errIe := false } }

/-- 43_register_access.md R155: write_STATUS, whether or not BUSY = 1. -/
def Obligations.WriteStatus : Prop :=
  (∀ (s : State) (v : Word), ∃ t, exec (.wr .word 0x04#8 v) s = .next t ∧
    t = { s with resp := none, status := t.status } ∧
    (v.getLsbD 1 = true → t.status.done = false) ∧
    (v.getLsbD 1 = false → t.status.done = s.status.done) ∧
    (v.getLsbD 2 = true → t.status.errv = false ∧ t.status.errcode = 0#3) ∧
    (v.getLsbD 2 = false → t.status.errv = s.status.errv ∧ t.status.errcode = s.status.errcode) ∧
    (v.getLsbD 3 = true → t.status.errovf = false) ∧
    (v.getLsbD 3 = false → t.status.errovf = s.status.errovf) ∧
    t.status.busy = s.status.busy ∧ t.status.wrap = s.status.wrap ∧
    t.status.keymask = s.status.keymask ∧ keyv t.status = keyv s.status) ∧
  ∀ s : State, statusWord s.status = 0x00000016#32 →
    statusWord (after (.wr .word 0x04#8 0x00000004#32) s).status = 0x00000002#32

/-- 43_register_access.md R156: write_KEY, one write and any series of them. -/
def Obligations.WriteKey : Prop :=
  (∀ (s : State) (i : Fin 8) (v : Word), s.status.busy = false →
    ∃ t, exec (.wr .word (BitVec.ofNat 8 (0x20 + 4 * i.val)) v) s = .next t ∧
      t = { s with
        resp := none
        key := s.key.set i v
        status := { s.status with keymask := t.status.keymask } } ∧
      (∀ j : Fin 8, t.status.keymask.getLsbD j =
        (decide (j = i) || s.status.keymask.getLsbD j)) ∧
      (keyv t.status = true ↔ ∀ j : Fin 8, j ≠ i → s.status.keymask.getLsbD j = true)) ∧
  (∀ (l : List (Fin 8 × Word)) (s : State), s.status.busy = false → ∀ j : Fin 8,
    (l.foldl (fun t p => after (.wr .word (BitVec.ofNat 8 (0x20 + 4 * p.1.val)) p.2) t)
      s).status.keymask.getLsbD j = (s.status.keymask.getLsbD j || l.any (fun p => p.1 = j))) ∧
  ∀ f : Fin 8 → Word,
    statusWord ((List.finRange 8).foldl
      (fun t i => after (.wr .word (BitVec.ofNat 8 (0x20 + 4 * i.val)) (f i)) t)
      State.reset).status = 0x00FF0100#32

/-- 43_register_access.md R157: write_IV; the very next read returns the word written; once WRAP is
cleared a KS with a whole key is accepted. -/
def Obligations.WriteIv : Prop :=
  ∀ (s : State) (i : Fin 4) (v : Word), s.status.busy = false →
    ∃ t, exec (.wr .word (BitVec.ofNat 8 (0x40 + 4 * i.val)) v) s = .next t ∧
      t = { s with resp := none, iv := s.iv.set i v, status := { s.status with wrap := false } } ∧
      exec (.rd .word (BitVec.ofNat 8 (0x40 + 4 * i.val))) t = .next { t with resp := some v } ∧
      ∀ len : BitVec 7, s.status.keymask = 0xFF#8 → 1 ≤ len.toNat → len.toNat ≤ 64 →
        exec (.ks len) t =
          .next { t with
            pend := some (.ks len)
            left := Config.latency
            status := { t.status with done := false, busy := true } }

/-- 43_register_access.md R158: write_DIN; the very next read returns the word written. -/
def Obligations.WriteDin : Prop :=
  ∀ (s : State) (i : Fin 16) (v : Word), s.status.busy = false →
    exec (.wr .word (BitVec.ofNat 8 (0x80 + 4 * i.val)) v) s =
      .next { s with resp := none, din := s.din.set i v } ∧
    exec (.rd .word (BitVec.ofNat 8 (0x80 + 4 * i.val))) { s with resp := none, din := s.din.set i v } =
      .next { s with resp := some v, din := s.din.set i v }

/-- The frame of WR: which offset can change which state (20_memory.md, section 4;
43_register_access.md, section 2). -/
def Obligations.WriteFrame : Prop :=
  ∀ (size : Size) (off : BitVec 8) (v : Word) (s t : State), exec (.wr size off v) s = .next t →
    t.dout = s.dout ∧ t.x = s.x ∧ t.ks = s.ks ∧ t.resetIn = s.resetIn ∧ t.inputs = s.inputs ∧
    t.resp = none ∧
    (off.toNat ≠ 0x00 → t.ctrl = s.ctrl) ∧
    (off.toNat ≠ 0x08 → t.pend = s.pend ∧ t.left = s.left ∧ t.status.busy = s.status.busy) ∧
    (off.toNat ≠ 0x04 → off.toNat ≠ 0x08 → t.status.done = s.status.done) ∧
    (∀ j : Fin 8, off.toNat ≠ 0x20 + 4 * j.val →
      t.key[j] = s.key[j] ∧ t.status.keymask.getLsbD j = s.status.keymask.getLsbD j) ∧
    (∀ j : Fin 4, off.toNat ≠ 0x40 + 4 * j.val → t.iv[j] = s.iv[j]) ∧
    ((∀ j : Fin 4, off.toNat ≠ 0x40 + 4 * j.val) → t.status.wrap = s.status.wrap) ∧
    (∀ j : Fin 16, off.toNat ≠ 0x80 + 4 * j.val → t.din[j] = s.din[j])

/-- The frame of a command's issue: no register changes but the error bits, or BUSY, DONE and the pending
command (41_keystream_commands.md, section 1; 70_reset_and_hazards.md, section 2). -/
def Obligations.IssueFrame : Prop :=
  ∀ (c : Cmd) (s t : State), exec c.toInstr s = .next t →
    t.ctrl = s.ctrl ∧ t.key = s.key ∧ t.iv = s.iv ∧ t.din = s.din ∧ t.dout = s.dout ∧ t.x = s.x ∧
    t.ks = s.ks ∧ t.resetIn = s.resetIn ∧ t.inputs = s.inputs ∧ t.resp = none ∧
    t.status.wrap = s.status.wrap ∧ t.status.keymask = s.status.keymask ∧
    ((t.pend = some c ∧ t.left = Config.latency ∧ t.status.busy = true ∧ t.status.done = false ∧
        t.status.errv = s.status.errv ∧ t.status.errcode = s.status.errcode ∧
        t.status.errovf = s.status.errovf) ∨
      (t.pend = s.pend ∧ t.left = s.left ∧ t.status.busy = s.status.busy ∧
        t.status.done = s.status.done ∧ t.status.errv = true))

/-! ### The block function -/

/-- 40_block_function.md R101: the quarter round, with the rotation of 00_scope.md R11 written as
shifts. -/
def Obligations.QuarterRound : Prop :=
  (∀ (rotl : Word → Nat → Word), (∀ w n, rotl w n = (w <<< n) ||| (w >>> (32 - n))) →
    ∀ a b c d a1 b1 c1 d1 a2 b2 c2 d2 : Word,
      a1 = a + b → d1 = rotl (d ^^^ a1) 16 → c1 = c + d1 → b1 = rotl (b ^^^ c1) 12 →
      a2 = a1 + b1 → d2 = rotl (d1 ^^^ a2) 8 → c2 = c1 + d2 → b2 = rotl (b1 ^^^ c2) 7 →
      quarterRound a b c d = (a2, b2, c2, d2)) ∧
  quarterRound 0#32 0#32 0#32 0#32 = (0#32, 0#32, 0#32, 0#32) ∧
  quarterRound 0x11111111#32 0x01020304#32 0x9b8d6f43#32 0x01234567#32 =
    (0xea2a92f4#32, 0xcb1cf8ce#32, 0x4581472e#32, 0x5881c4bb#32)

/-- 40_block_function.md R102: the double round is the eight quarter rounds, and the order inside each
group of four does not matter; the example of 95_test_vectors.md V2. -/
def Obligations.DoubleRound : Prop :=
  (∀ (columns diagonals : List (Fin 16 × Fin 16 × Fin 16 × Fin 16)),
    columns.Perm [(0, 4, 8, 12), (1, 5, 9, 13), (2, 6, 10, 14), (3, 7, 11, 15)] →
    diagonals.Perm [(0, 5, 10, 15), (1, 6, 11, 12), (2, 7, 8, 13), (3, 4, 9, 14)] →
    ∀ x : Vector Word 16,
      doubleRound x = (columns ++ diagonals).foldl
        (fun x q => quarterRoundAt q.1 q.2.1 q.2.2.1 q.2.2.2 x) x) ∧
  doubleRound^[10]
      #v[0x61707865#32, 0x3320646e#32, 0x79622d32#32, 0x6b206574#32, 0x03020100#32, 0x07060504#32,
        0x0b0a0908#32, 0x0f0e0d0c#32, 0x13121110#32, 0x17161514#32, 0x1b1a1918#32, 0x1f1e1d1c#32,
        0x00000001#32, 0x09000000#32, 0x4a000000#32, 0x00000000#32] =
    #v[0x837778ab#32, 0xe238d763#32, 0xa67ae21e#32, 0x5950bb2f#32, 0xc4f2d0c7#32, 0xfc62bb2f#32,
      0x8fa018fc#32, 0x3f5ec7b7#32, 0x335271c2#32, 0xf29489f3#32, 0xeabda8fc#32, 0x82e46ebd#32,
      0xd19c12b4#32, 0xb04e16de#32, 0x9e83d0cb#32, 0x4e3c50a2#32]

/-- 40_block_function.md R103: the initial state. -/
def Obligations.InitialState : Prop :=
  ∀ (key : Vector Word 8) (iv : Vector Word 4),
    (initialState key iv)[0] = 0x61707865#32 ∧ (initialState key iv)[1] = 0x3320646e#32 ∧
    (initialState key iv)[2] = 0x79622d32#32 ∧ (initialState key iv)[3] = 0x6b206574#32 ∧
    (∀ i : Fin 8, (initialState key iv).getD (4 + i.val) 0#32 = key[i]) ∧
    ∀ i : Fin 4, (initialState key iv).getD (12 + i.val) 0#32 = iv[i]

/-- 40_block_function.md R104: the block function, its example, and that an all-zero key and IV give a
block that is not zero. -/
def Obligations.BlockFunction : Prop :=
  (∀ (key : Vector Word 8) (iv : Vector Word 4) (x s : Vector Word 16), s = initialState key iv →
    x = doubleRound^[10] s → ∀ i : Fin 64,
    (block key iv)[i] =
      (x.getD (i.val / 4) 0#32 + s.getD (i.val / 4) 0#32).extractLsb' (8 * (i.val % 4)) 8) ∧
  ((block
      #v[0x03020100#32, 0x07060504#32, 0x0b0a0908#32, 0x0f0e0d0c#32, 0x13121110#32, 0x17161514#32,
        0x1b1a1918#32, 0x1f1e1d1c#32]
      #v[0x00000001#32, 0x09000000#32, 0x4a000000#32, 0x00000000#32]).toList.take 8 =
    [0x10#8, 0xf1#8, 0xe7#8, 0xe4#8, 0xd1#8, 0x3b#8, 0x59#8, 0x15#8]) ∧
  ((block
      #v[0x03020100#32, 0x07060504#32, 0x0b0a0908#32, 0x0f0e0d0c#32, 0x13121110#32, 0x17161514#32,
        0x1b1a1918#32, 0x1f1e1d1c#32]
      #v[0x00000001#32, 0x09000000#32, 0x4a000000#32, 0x00000000#32]).toList.drop 61 =
    [0x50#8, 0x3c#8, 0x4e#8]) ∧
  block (Vector.replicate 8 0#32) (Vector.replicate 4 0#32) ≠ Vector.replicate 64 0#8

/-! ### The counter -/

/-- 41_keystream_commands.md R124: the counter advance; NOP and CLRBUF do not advance, ZEROIZE clears;
after a wrap KS and XOR are refused until an IV register is written. -/
def Obligations.CounterAdvance : Prop :=
  (∀ s : State,
    (s.ctrl.ctr64 = true →
      ((counterAdvance s).iv[1] ++ (counterAdvance s).iv[0]).toNat =
        ((s.iv[1] ++ s.iv[0]).toNat + 1) % 2 ^ 64 ∧
      ((counterAdvance s).status.wrap = true ↔
        s.status.wrap = true ∨ (s.iv[1] ++ s.iv[0]).toNat = 0xFFFFFFFFFFFFFFFF)) ∧
    (s.ctrl.ctr64 = false →
      (counterAdvance s).iv[0].toNat = (s.iv[0].toNat + 1) % 2 ^ 32 ∧
      (counterAdvance s).iv[1] = s.iv[1] ∧
      ((counterAdvance s).status.wrap = true ↔ s.status.wrap = true ∨ s.iv[0].toNat = 0xFFFFFFFF)) ∧
    (counterAdvance s).iv[2] = s.iv[2] ∧ (counterAdvance s).iv[3] = s.iv[3] ∧
    counterAdvance s =
      { s with
        iv := (counterAdvance s).iv
        status := { s.status with wrap := (counterAdvance s).status.wrap } }) ∧
  (∀ (len : BitVec 7) (s : State),
    (complete (.ks len) s).iv = (counterAdvance s).iv ∧
    (complete (.ks len) s).status.wrap = (counterAdvance s).status.wrap ∧
    (complete (.xor len) s).iv = (counterAdvance s).iv ∧
    (complete (.xor len) s).status.wrap = (counterAdvance s).status.wrap) ∧
  (∀ s : State, (complete .nop s).iv = s.iv ∧ (complete .clrbuf s).iv = s.iv ∧
    (complete .zeroize s).iv = Vector.replicate 4 0#32) ∧
  ∀ (len : BitVec 7) (s t : State), t = counterAdvance s → s.status.busy = false →
    s.status.keymask = 0xFF#8 → 1 ≤ len.toNat → len.toNat ≤ 64 → t.status.wrap = true →
    exec (.ks len) t = .next { t with resp := none, status := withError 5#3 t.status } ∧
    exec (.xor len) t = .next { t with resp := none, status := withError 5#3 t.status } ∧
    ∀ (i : Fin 4) (v : Word),
      checkKsXor len (after (.wr .word (BitVec.ofNat 8 (0x40 + 4 * i.val)) v) t).status = none

/-- From counter 0 one key and nonce yield 2^64 or 2^32 blocks, one per command, and then KS and XOR are
refused with CTR_EXHAUSTED (41_keystream_commands.md, R130 and section 2). -/
def Obligations.CounterExhaustion : Prop :=
  ∀ (s : State) (n : Nat), keystreamReady s → blockCounter s = 0 → n ≤ counterRange s.ctrl →
    ∀ t, t = (runCommand (.ks 64#7))^[n] s →
      blockCounter t = n % counterRange s.ctrl ∧
      (t.status.wrap = true ↔ n = counterRange s.ctrl) ∧
      (n = counterRange s.ctrl → ∀ len : BitVec 7, 1 ≤ len.toNat → len.toNat ≤ 64 →
        exec (.ks len) t = .next { t with resp := none, status := withError 5#3 t.status } ∧
        exec (.xor len) t = .next { t with resp := none, status := withError 5#3 t.status })

/-! ### Commands -/

/-- 41_keystream_commands.md R122: the operand checks of KS and XOR, in order. -/
def Obligations.KsXorChecks : Prop :=
  ∀ (len : BitVec 7) (s : State), s.status.busy = false →
    ∀ (c : Cmd), c = .ks len ∨ c = .xor len →
      (len.toNat = 0 ∨ 64 < len.toNat →
        exec c.toInstr s = .next { s with resp := none, status := withError 3#3 s.status }) ∧
      (1 ≤ len.toNat → len.toNat ≤ 64 → s.status.keymask ≠ 0xFF#8 →
        exec c.toInstr s = .next { s with resp := none, status := withError 4#3 s.status }) ∧
      (1 ≤ len.toNat → len.toNat ≤ 64 → s.status.keymask = 0xFF#8 → s.status.wrap = true →
        exec c.toInstr s = .next { s with resp := none, status := withError 5#3 s.status }) ∧
      (1 ≤ len.toNat → len.toNat ≤ 64 → s.status.keymask = 0xFF#8 → s.status.wrap = false →
        exec c.toInstr s =
          .next { s with
            resp := none
            pend := some c
            left := Config.latency
            status := { s.status with done := false, busy := true } })

/-- 41_keystream_commands.md R125: KS has its word; it is refused with the failing check's error, or is
accepted, and CC20_LATENCY cycles later it is complete: the first LEN keystream bytes are in DOUT and
zeros after them, the counter is advanced, and nothing else changed but BUSY, DONE and WRAP. -/
def Obligations.KsRuns : Prop :=
  (∀ len : BitVec 7, encodeCmd (.ks len) = 0x00000001#32 ||| (len.setWidth 32 <<< 8)) ∧
  (∀ (len : BitVec 7) (s : State) (e : Err), s.status.busy = false → checkKsXor len s.status = some e →
    exec (.ks len) s = .next { s with resp := none, status := withError (errCode e) s.status }) ∧
  (∀ (len : BitVec 7) (s : State), keystreamReady s → 1 ≤ len.toNat → len.toNat ≤ 64 →
    exec (.ks len) s =
      .next { s with
        resp := none
        pend := some (.ks len)
        left := Config.latency
        status := { s.status with done := false, busy := true } } ∧
    ∃ u, runCommand (.ks len) s = u ∧
      (∀ i : Fin 64, fileByte u.dout i = if i.val < len.toNat then (block s.key s.iv)[i] else 0#8) ∧
      u.iv = (counterAdvance s).iv ∧
      blockCounter u = (blockCounter s + 1) % counterRange s.ctrl ∧
      (u.status.wrap = true ↔ blockCounter s + 1 = counterRange s.ctrl) ∧
      u = { s with
        resp := none
        dout := u.dout
        iv := u.iv
        x := Vector.replicate 16 0#32
        ks := Vector.replicate 64 0#8
        pend := none
        left := 0
        status := { s.status with busy := false, done := true, wrap := u.status.wrap } }) ∧
  ∀ s : State, keystreamReady s → s.ctrl.ctr64 = false →
    s.key = #v[0x03020100#32, 0x07060504#32, 0x0b0a0908#32, 0x0f0e0d0c#32, 0x13121110#32, 0x17161514#32,
      0x1b1a1918#32, 0x1f1e1d1c#32] →
    s.iv = #v[0x00000001#32, 0x09000000#32, 0x4a000000#32, 0x00000000#32] →
    (runCommand (.ks 64#7) s).dout[0] = 0xe4e7f110#32 ∧ (runCommand (.ks 64#7) s).iv[0] = 2#32

/-- 41_keystream_commands.md R126: XOR has its word; it is refused with the failing check's error, or is
accepted, and CC20_LATENCY cycles later it is complete: the first LEN bytes of DIN xor keystream are in
DOUT and zeros after them, the counter is advanced, and nothing else changed but BUSY, DONE and WRAP. -/
def Obligations.XorRuns : Prop :=
  (∀ len : BitVec 7, encodeCmd (.xor len) = 0x00000002#32 ||| (len.setWidth 32 <<< 8)) ∧
  (∀ (len : BitVec 7) (s : State) (e : Err), s.status.busy = false → checkKsXor len s.status = some e →
    exec (.xor len) s = .next { s with resp := none, status := withError (errCode e) s.status }) ∧
  (∀ (len : BitVec 7) (s : State), keystreamReady s → 1 ≤ len.toNat → len.toNat ≤ 64 →
    exec (.xor len) s =
      .next { s with
        resp := none
        pend := some (.xor len)
        left := Config.latency
        status := { s.status with done := false, busy := true } } ∧
    ∃ u, runCommand (.xor len) s = u ∧
      (∀ i : Fin 64, fileByte u.dout i =
        if i.val < len.toNat then fileByte s.din i ^^^ (block s.key s.iv)[i] else 0#8) ∧
      u.iv = (counterAdvance s).iv ∧
      blockCounter u = (blockCounter s + 1) % counterRange s.ctrl ∧
      (u.status.wrap = true ↔ blockCounter s + 1 = counterRange s.ctrl) ∧
      u = { s with
        resp := none
        dout := u.dout
        iv := u.iv
        x := Vector.replicate 16 0#32
        ks := Vector.replicate 64 0#8
        pend := none
        left := 0
        status := { s.status with busy := false, done := true, wrap := u.status.wrap } }) ∧
  ∀ s : State, keystreamReady s → s.ctrl.ctr64 = false →
    s.key = #v[0x03020100#32, 0x07060504#32, 0x0b0a0908#32, 0x0f0e0d0c#32, 0x13121110#32, 0x17161514#32,
      0x1b1a1918#32, 0x1f1e1d1c#32] →
    s.iv = #v[0x00000001#32, 0x00000000#32, 0x4a000000#32, 0x00000000#32] → s.din[0] = 0x6964614c#32 →
    (runCommand (.xor 64#7) s).dout[0] = 0x9a352e6e#32 ∧ (runCommand (.xor 64#7) s).iv[0] = 2#32

/-- 42_control_commands.md R140: NOP is accepted whatever the key and WRAP, and its completion changes
BUSY and DONE only; every other word with OP = 0 is illegal. -/
def Obligations.NopRuns : Prop :=
  encodeCmd .nop = 0x00000000#32 ∧
  (∀ s : State, idle s →
    exec .nop s =
      .next { s with
        resp := none
        pend := some .nop
        left := Config.latency
        status := { s.status with done := false, busy := true } } ∧
    runCommand .nop s =
      { s with
        resp := none
        x := Vector.replicate 16 0#32
        ks := Vector.replicate 64 0#8
        pend := none
        left := 0
        status := { s.status with busy := false, done := true } }) ∧
  (∀ (s : State) (w : Word), s.status.busy = false → w.toNat % 16 = 0 → w ≠ 0x00000000#32 →
    exec (.wr .word 0x08#8 w) s = .next { s with resp := none, status := withError 2#3 s.status }) ∧
  statusWord (runCommand .nop State.reset).status = 0x00000002#32

/-- 42_control_commands.md R141: CLRBUF is accepted whatever the key and WRAP, and its completion clears
DIN and DOUT and changes BUSY and DONE; every other word with OP = 3 is illegal. -/
def Obligations.ClrbufRuns : Prop :=
  encodeCmd .clrbuf = 0x00000003#32 ∧
  (∀ s : State, idle s →
    exec .clrbuf s =
      .next { s with
        resp := none
        pend := some .clrbuf
        left := Config.latency
        status := { s.status with done := false, busy := true } } ∧
    runCommand .clrbuf s =
      { s with
        resp := none
        din := Vector.replicate 16 0#32
        dout := Vector.replicate 16 0#32
        x := Vector.replicate 16 0#32
        ks := Vector.replicate 64 0#8
        pend := none
        left := 0
        status := { s.status with busy := false, done := true } }) ∧
  ∀ (s : State) (w : Word), s.status.busy = false → w.toNat % 16 = 3 → w ≠ 0x00000003#32 →
    exec (.wr .word 0x08#8 w) s = .next { s with resp := none, status := withError 2#3 s.status }

/-- 42_control_commands.md R142: ZEROIZE is accepted whatever the key and WRAP; its completion clears
every secret and per-message value, and keeps CTRL and the error bits; after it a KS or XOR is refused
with NO_KEY until all eight KEY registers are written; while a command is in flight it is refused with
BUSY; every other word with OP = 4 is illegal. -/
def Obligations.ZeroizeRuns : Prop :=
  encodeCmd .zeroize = 0x00000004#32 ∧
  (∀ s : State, idle s →
    exec .zeroize s =
      .next { s with
        resp := none
        pend := some .zeroize
        left := Config.latency
        status := { s.status with done := false, busy := true } } ∧
    runCommand .zeroize s =
      { s with
        resp := none
        key := Vector.replicate 8 0#32
        iv := Vector.replicate 4 0#32
        din := Vector.replicate 16 0#32
        dout := Vector.replicate 16 0#32
        x := Vector.replicate 16 0#32
        ks := Vector.replicate 64 0#8
        pend := none
        left := 0
        status := { s.status with
          busy := false, done := true, keymask := 0x00#8, wrap := false } } ∧
    (s.status.errv = false → s.status.errcode = 0#3 → s.status.errovf = false →
      statusWord (runCommand .zeroize s).status = 0x00000002#32) ∧
    ∀ (l : List (Fin 8 × Word)) (t : State) (len : BitVec 7),
      t = l.foldl (fun t p => after (.wr .word (BitVec.ofNat 8 (0x20 + 4 * p.1.val)) p.2) t)
        (runCommand .zeroize s) → 1 ≤ len.toNat → len.toNat ≤ 64 →
      ((∃ j : Fin 8, j ∉ l.map Prod.fst) →
        exec (.ks len) t = .next { t with resp := none, status := withError 4#3 t.status } ∧
        exec (.xor len) t = .next { t with resp := none, status := withError 4#3 t.status }) ∧
      ((∀ j : Fin 8, j ∈ l.map Prod.fst) → keystreamReady t)) ∧
  (∀ s : State, s.status.busy = true →
    exec .zeroize s = .next { s with resp := none, status := withError 1#3 s.status }) ∧
  ∀ (s : State) (w : Word), s.status.busy = false → w.toNat % 16 = 4 → w ≠ 0x00000004#32 →
    exec (.wr .word 0x08#8 w) s = .next { s with resp := none, status := withError 2#3 s.status }

/-- XOR with DIN all zero leaves what KS leaves, and DIN bytes at index ≥ LEN are ignored
(41_keystream_commands.md, R126's corner cases). -/
def Obligations.XorCornerCases : Prop :=
  ∀ (len : BitVec 7) (s : State), keystreamReady s → 1 ≤ len.toNat → len.toNat ≤ 64 →
    (s.din = Vector.replicate 16 0#32 → runCommand (.xor len) s = runCommand (.ks len) s) ∧
    ∀ d : Vector Word 16, (∀ i : Nat, i < len.toNat → fileByte d i = fileByte s.din i) →
      (runCommand (.xor len) { s with din := d }).dout = (runCommand (.xor len) s).dout

/-- 41_keystream_commands.md R128: two XOR commands with the same KEY, IV and LEN, the second on the
first's DOUT, give the first's DIN back. -/
def Obligations.XorTwiceIsIdentity : Prop :=
  ∀ (len : BitVec 7) (s t : State), keystreamReady s → keystreamReady t → 1 ≤ len.toNat →
    len.toNat ≤ 64 → t.key = s.key → t.iv = s.iv → t.din = (runCommand (.xor len) s).dout →
    ∀ i : Nat, i < len.toNat → fileByte (runCommand (.xor len) t).dout i = fileByte s.din i

/-- 41_keystream_commands.md R129: a message of L bytes takes ⌈L/64⌉ XOR commands, command j uses counter
c0 + j and LEN = min(64, L − 64j), and byte p of the result is m[p] xor byte p mod 64 of the block of
counter c0 + p div 64. -/
def Obligations.MessageKeystream : Prop :=
  ∀ (m : List Byte) (s : State), keystreamReady s →
    blockCounter s + messageCommands m ≤ counterRange s.ctrl →
    (xorMessage m s).1.length = m.length ∧
    (∀ p : Nat, p < m.length → (xorMessage m s).1.getD p 0#8 = m.getD p 0#8 ^^^
      (block s.key (ivWithCounter s.ctrl s.iv (blockCounter s + p / 64))).getD (p % 64) 0#8) ∧
    blockCounter (xorMessage m s).2 = (blockCounter s + messageCommands m) % counterRange s.ctrl

/-- The document's round trip on a whole message: encrypting the ciphertext from the same key, nonce and
counter gives the message back (95_test_vectors.md, section 1, S1). -/
def Obligations.MessageRoundTrip : Prop :=
  ∀ (m : List Byte) (s t : State), keystreamReady s → keystreamReady t → t.key = s.key →
    t.iv = s.iv → t.ctrl.ctr64 = s.ctrl.ctr64 →
    blockCounter s + messageCommands m ≤ counterRange s.ctrl →
    (xorMessage (xorMessage m s).1 t).1 = m

/-- The one-time key of AEAD: `ks 32` from counter 0 leaves the first 32 bytes of block 0 in DOUT and the
counter at 1; `clrbuf` then clears it and keeps KEY, IV and the key's validity
(41_keystream_commands.md, section 4; 42_control_commands.md R141). -/
def Obligations.AeadOneTimeKey : Prop :=
  ∀ s t u : State, keystreamReady s → blockCounter s = 0 → t = runCommand (.ks 32#7) s →
    u = runCommand .clrbuf t →
    (∀ i : Fin 64, fileByte t.dout i = if i.val < 32 then (block s.key s.iv)[i] else 0#8) ∧
    blockCounter t = 1 ∧ u.dout = Vector.replicate 16 0#32 ∧ u.iv = t.iv ∧ u.key = s.key ∧
    keystreamReady u

/-! ### The life of a command -/

/-- 70_reset_and_hazards.md R205: acceptance and completion, common to every command. -/
def Obligations.AcceptAndComplete : Prop :=
  (∀ (c : Cmd) (s : State), firstError c.toInstr s.status = none →
    exec c.toInstr s =
      .next { s with
        resp := none
        pend := some c
        left := Config.latency
        status := { s.status with done := false, busy := true } }) ∧
  ∀ (c : Cmd) (s : State), s.resetIn = false → s.pend = some c → s.left = 1 →
    ∃ own : State,
      own = (match c with
        | .nop => completeNop s
        | .ks len => completeKs len s
        | .xor len => completeXor len s
        | .clrbuf => completeClrbuf s
        | .zeroize => completeZeroize s) ∧
      clockCycle s =
        { own with
          x := Vector.replicate 16 0#32
          ks := Vector.replicate 64 0#8
          pend := none
          left := 0
          status := { own.status with busy := false, done := true } }

/-- A pending command completes after exactly LEFT cycles and not before, whatever the command; with no
input waiting the machine's own steps get there (10_state.md R35; 70_reset_and_hazards.md R206). And `wait`
ends, whatever the host's pace: its last read of STATUS, which has bit 0 = 0, is of the completed state
(30_encoding.md R94). -/
def Obligations.CommandCompletesInTime : Prop :=
  (∀ (s : State) (c : Cmd) (n : Nat), s.inputs = [] → s.resetIn = false → s.pend = some c →
    s.left = n + 1 →
    (∀ k : Nat, k ≤ n → Host.Core.run core k s = .next { s with left := n + 1 - k }) ∧
    Host.Core.run core (n + 1) s = .next (complete c s)) ∧
  ∀ (s : State) (c : Cmd) (gaps : List Nat) (rest : List Input), s.inputs = .wait gaps :: rest →
    s.resetIn = false → s.status.busy = true → s.pend = some c →
    (statusWord (complete c s).status).getLsbD 0 = false ∧
    ∃ k, Host.Core.run core k s =
      .next { complete c s with resp := some (statusWord (complete c s).status), inputs := rest }

/-- Timing does not depend on data: two states that agree on whether a command is pending, on LEFT and on
the reset line agree on them after any number of cycles, and every accepted command starts with the same
LEFT (70_reset_and_hazards.md, section 4; 40_block_function.md R105). -/
def Obligations.TimingIndependentOfData : Prop :=
  (∀ (n : Nat) (s t : State), s.pend.isSome = t.pend.isSome → s.left = t.left →
    s.resetIn = t.resetIn →
    (clocks n s).pend.isSome = (clocks n t).pend.isSome ∧ (clocks n s).left = (clocks n t).left) ∧
  ∀ (c d : Cmd) (s t : State), firstError c.toInstr s.status = none →
    firstError d.toInstr t.status = none →
    (after c.toInstr s).left = (after d.toInstr t).left ∧
    (after c.toInstr s).pend.isSome = (after d.toInstr t).pend.isSome

/-- While a command is in flight a step resets the block, completes the command, or changes neither the
command nor its operands nor DOUT (20_memory.md, section 6; 70_reset_and_hazards.md, section 3). -/
def Obligations.BusyFreezesOperands : Prop :=
  ∀ (s t : State) (c : Cmd), s.status.busy = true → s.pend = some c → step s = .next t →
    nextInput s = .assertReset ∨
    (nextInput s = .clock ∧ s.resetIn = false ∧ s.left ≤ 1 ∧
      t = complete c { s with inputs := s.inputs.tail }) ∨
    (t.pend = some c ∧ t.status.busy = true ∧ t.key = s.key ∧ t.iv = s.iv ∧ t.din = s.din ∧
      t.ctrl = s.ctrl ∧ t.dout = s.dout ∧ t.status.keymask = s.status.keymask ∧
      t.status.wrap = s.status.wrap)

/-- Only a completion other than NOP's, and reset, change DOUT (10_state.md R32). -/
def Obligations.OnlyCompletionWritesDout : Prop :=
  ∀ s t : State, step s = .next t → t.dout ≠ s.dout →
    nextInput s = .assertReset ∨
    (nextInput s = .clock ∧ s.resetIn = false ∧ s.left ≤ 1 ∧ ∃ c, s.pend = some c ∧ c ≠ .nop)

/-- 10_state.md R28: KEYMASK is set by accepted KEY writes, cleared by reset and ZEROIZE only, and KS and
XOR need it whole. -/
def Obligations.KeymaskWriters : Prop :=
  (∀ (s t : State) (i : Fin 8), step s = .next t → s.status.keymask.getLsbD i = false →
    t.status.keymask.getLsbD i = true →
    s.status.busy = false ∧ ∃ v, nextInput s = .txn (BitVec.ofNat 11 (0x620 + 4 * i.val)) v) ∧
  (∀ (s : State) (i : Fin 8) (v : Word) (rest : List Input), s.resetIn = false →
    s.status.busy = false → s.inputs = .txn (BitVec.ofNat 11 (0x620 + 4 * i.val)) v :: rest →
    ∃ t, step s = .next t ∧ t.status.keymask.getLsbD i = true) ∧
  (∀ (s t : State) (i : Fin 8), step s = .next t → s.status.keymask.getLsbD i = true →
    t.status.keymask.getLsbD i = false →
    t.status.keymask = 0x00#8 ∧
    (nextInput s = .assertReset ∨ (nextInput s = .clock ∧ s.pend = some .zeroize))) ∧
  ∀ (len : BitVec 7) (s t : State), s.status.busy = false → s.status.keymask ≠ 0xFF#8 →
    exec (.ks len) s = .next t ∨ exec (.xor len) s = .next t →
    t.status.busy = false ∧ t.pend = s.pend

/-- WRAP is set only by the completion of a KS or XOR from the all-ones counter, and cleared only by an IV
write, ZEROIZE's completion and reset (10_state.md, section 7). -/
def Obligations.WrapWriters : Prop :=
  (∀ s t : State, step s = .next t → s.status.wrap = false → t.status.wrap = true →
    nextInput s = .clock ∧ s.resetIn = false ∧ s.left ≤ 1 ∧
    blockCounter s + 1 = counterRange s.ctrl ∧
    ∃ len, s.pend = some (.ks len) ∨ s.pend = some (.xor len)) ∧
  ∀ s t : State, step s = .next t → s.status.wrap = true → t.status.wrap = false →
    nextInput s = .assertReset ∨
    (nextInput s = .clock ∧ s.pend = some .zeroize) ∨
    ∃ (i : Fin 4) (v : Word), s.status.busy = false ∧
      nextInput s = .txn (BitVec.ofNat 11 (0x640 + 4 * i.val)) v

/-- BUSY is set only by an acceptance, cleared only by a completion and reset; DONE is set only by a
completion, cleared only by an acceptance, a STATUS write and reset (10_state.md, section 7). -/
def Obligations.BusyDoneWriters : Prop :=
  (∀ s t : State, step s = .next t → s.status.busy = false → t.status.busy = true →
    ∃ (c : Cmd), nextInput s = .txn 0x608#11 (encodeCmd c) ∧ t.pend = some c ∧
      t.left = Config.latency ∧ t.status.done = false) ∧
  (∀ s t : State, step s = .next t → s.status.busy = true → t.status.busy = false →
    nextInput s = .assertReset ∨ (nextInput s = .clock ∧ t.status.done = true ∧ t.pend = none)) ∧
  (∀ s t : State, step s = .next t → s.status.done = false → t.status.done = true →
    nextInput s = .clock ∧ s.pend ≠ none ∧ t.pend = none ∧ t.status.busy = false) ∧
  ∀ s t : State, step s = .next t → s.status.done = true → t.status.done = false →
    nextInput s = .assertReset ∨
    (∃ v : Word, nextInput s = .txn 0x604#11 v ∧ v.getLsbD 1 = true) ∨
    (∃ c : Cmd, nextInput s = .txn 0x608#11 (encodeCmd c) ∧ t.status.busy = true)

/-- ERRV and ERROVF are set only by an error of the transaction and cleared only by the STATUS write that
names them and by reset; a completion never raises an error (10_state.md, section 7;
60_exceptions.md R170). -/
def Obligations.ErrorFlagWriters : Prop :=
  (∀ s t : State, step s = .next t → s.status.errv = false → t.status.errv = true →
    ∃ d v e, nextInput s = .txn d v ∧ firstError (decodeTxn d v) s.status = some e ∧
      t.status.errcode = errCode e) ∧
  (∀ s t : State, step s = .next t → s.status.errv = true → t.status.errv = false →
    nextInput s = .assertReset ∨ ∃ v : Word, nextInput s = .txn 0x604#11 v ∧ v.getLsbD 2 = true) ∧
  (∀ s t : State, step s = .next t → s.status.errovf = false → t.status.errovf = true →
    s.status.errv = true ∧
    ∃ d v e, nextInput s = .txn d v ∧ firstError (decodeTxn d v) s.status = some e) ∧
  ∀ s t : State, step s = .next t → s.status.errovf = true → t.status.errovf = false →
    nextInput s = .assertReset ∨ ∃ v : Word, nextInput s = .txn 0x604#11 v ∧ v.getLsbD 3 = true

/-! ### Interrupt and reset -/

/-- 60_exceptions.md R180: the interrupt output, and what clears its sources: the W1C writes and a new
accepted command. -/
def Obligations.InterruptOutput : Prop :=
  (∀ s : State, irq s = true ↔
    (s.status.done = true ∧ s.ctrl.doneIe = true) ∨ (s.status.errv = true ∧ s.ctrl.errIe = true)) ∧
  (∀ (s : State) (v : Word), v.getLsbD 1 = true → v.getLsbD 2 = true →
    irq (after (.wr .word 0x04#8 v) s) = false) ∧
  (∀ (s : State) (v : Word), v.getLsbD 1 = true → v.getLsbD 2 = false →
    irq (after (.wr .word 0x04#8 v) s) = (s.status.errv && s.ctrl.errIe)) ∧
  (∀ (s : State) (v : Word), v.getLsbD 1 = false → v.getLsbD 2 = true →
    irq (after (.wr .word 0x04#8 v) s) = (s.status.done && s.ctrl.doneIe)) ∧
  ∀ (c : Cmd) (s : State), firstError c.toInstr s.status = none →
    irq (after c.toInstr s) = (s.status.errv && s.ctrl.errIe)

/-- 70_reset_and_hazards.md R200: the reset values, and that asserting reset gives them from every state,
a command in flight included. What the host holds stays (log 6). -/
def Obligations.ResetValues : Prop :=
  (∀ r : State, (r = State.reset ∨ ∃ s, r = assertReset s) →
    ctrlWord r.ctrl = 0x00000001#32 ∧ statusWord r.status = 0x00000000#32 ∧
    (∀ i : Fin 8, r.key[i] = 0#32) ∧ (∀ i : Fin 4, r.iv[i] = 0#32) ∧ (∀ i : Fin 16, r.din[i] = 0#32) ∧
    (∀ i : Fin 16, r.dout[i] = 0#32) ∧ r.pend = none ∧ r.left = 0 ∧ (∀ i : Fin 16, r.x[i] = 0#32) ∧
    (∀ i : Fin 64, r.ks[i] = 0#8) ∧ irq r = false ∧
    exec (.rd .word 0x0C#8) r = .next { r with resp := some 0xCC200100#32 } ∧
    clockCycle r = r) ∧
  ∀ (s : State) (rest : List Input), s.inputs = .assertReset :: rest →
    step s = .next (assertReset { s with inputs := rest })

/-- The invariant holds at reset. -/
def Obligations.ResetMeetsInvariant : Prop := Inv State.reset

/-! ### Whole-machine statements -/

/-- 10_state.md R25: the invariants of STATUS, kept by every step on their own. -/
def Obligations.StatusInvariants : Prop :=
  ∀ s t : State, step s = .next t →
    (s.status.errv = false → s.status.errcode = 0#3) → s.status.errcode ≠ 7#3 →
    s.status.busy = s.pend.isSome →
    (t.status.errv = false → t.status.errcode = 0#3) ∧ t.status.errcode ≠ 7#3 ∧
    t.status.busy = t.pend.isSome ∧
    ((statusWord t.status).getLsbD 8 = true ↔ (statusWord t.status).extractLsb' 16 8 = 0xFF#8)

/-- The invariant is kept by every step from every state that meets it. -/
def Obligations.StepKeepsInvariant : Prop := ∀ s t : State, Inv s → step s = .next t → Inv t

/-- A schedule in which no transaction and no `wait` comes while reset is asserted never stops: every number of steps
from any state answers a next state (60_exceptions.md R175, R177; 70_reset_and_hazards.md R201). -/
def Obligations.SafeScheduleNeverStops : Prop :=
  ∀ (n : Nat) (s : State), s.safe → ∃ t, Host.Core.run core n s = .next t ∧ t.safe

/-- The key cannot be read: of two states that differ in KEY, the working state and the keystream buffer
only, every instruction gives the host the same answer and leaves states that differ in those only
(10_state.md R27, R33; 60_exceptions.md R185). -/
def Obligations.KeyNeverShows : Prop :=
  ∀ (i : Instr) (s t : State), sameButSecrets s t →
    ∃ s' t', exec i s = .next s' ∧ exec i t = .next t' ∧ sameButSecrets s' t' ∧
      s'.resp = t'.resp ∧ irq s' = irq t'

/-- `ldkey` loads the key from any idle state, in eight steps, and makes it whole; `ldiv64` and `ldiv96`
load counter and nonce in four, and clear WRAP (30_encoding.md R94; 43_register_access.md R156, R157). -/
def Obligations.LoadPseudoInstructions : Prop :=
  ∀ (s : State) (k : List Byte) (rest : List Input), idle s →
    (s.inputs = ldkey k ++ rest → ∃ t, Host.Core.run core 8 s = .next t ∧
      (∀ i : Fin 8, t.key[i] = le32 (k.getD (4 * i.val) 0#8) (k.getD (4 * i.val + 1) 0#8)
        (k.getD (4 * i.val + 2) 0#8) (k.getD (4 * i.val + 3) 0#8)) ∧
      t = { s with
        key := t.key, status := { s.status with keymask := 0xFF#8 }, resp := none, inputs := rest }) ∧
    (∀ c : BitVec 64, s.inputs = ldiv64 c k ++ rest → ∃ t, Host.Core.run core 4 s = .next t ∧
      t = { s with
        iv := #v[c.extractLsb' 0 32, c.extractLsb' 32 32, wordOfBytes k 0, wordOfBytes k 1]
        status := { s.status with wrap := false }
        resp := none
        inputs := rest } ∧
      (s.ctrl.ctr64 = true → blockCounter t = c.toNat)) ∧
    (∀ c : Word, s.inputs = ldiv96 c k ++ rest → ∃ t, Host.Core.run core 4 s = .next t ∧
      t = { s with
        iv := #v[c, wordOfBytes k 0, wordOfBytes k 1, wordOfBytes k 2]
        status := { s.status with wrap := false }
        resp := none
        inputs := rest } ∧
      (s.ctrl.ctr64 = false → blockCounter t = c.toNat))
end

