-- ==== Sys2Proof/Laws/Bytes.lean ====
section
/-! SUPPORT. Bytes of words and files. -/

namespace Sys2Proof.Machine

/-- Bit `i` of a word made of four bytes (00_scope.md R12). -/
theorem getLsbD_le32 (b0 b1 b2 b3 : Byte) (i : Nat) :
    (le32 b0 b1 b2 b3).getLsbD i =
      if i < 8 then b0.getLsbD i else if i < 16 then b1.getLsbD (i - 8)
      else if i < 24 then b2.getLsbD (i - 16) else b3.getLsbD (i - 24) := by
  unfold le32
  rw [BitVec.getLsbD_append, BitVec.getLsbD_append, BitVec.getLsbD_append]
  split
  · rfl
  · have h1 : (i - 8 < 8) = (i < 16) := by simp only [eq_iff_iff]; omega
    have h2 : (i - 16 < 8) = (i < 24) := by simp only [eq_iff_iff]; omega
    simp only [h1, h2, Nat.sub_sub, Nat.reduceAdd]

/-- Byte lane `k` of a word made of four bytes (20_memory.md R61). -/
theorem lane_le32 (b0 b1 b2 b3 : Byte) (k : Nat) (hk : k < 4) :
    lane (le32 b0 b1 b2 b3) k = if k = 0 then b0 else if k = 1 then b1 else if k = 2 then b2 else b3 := by
  have h : k = 0 ∨ k = 1 ∨ k = 2 ∨ k = 3 := by omega
  rcases h with rfl | rfl | rfl | rfl <;>
    (apply BitVec.eq_of_getLsbD_eq; intro i hi; simp only [lane, BitVec.getLsbD_extractLsb', getLsbD_le32]
     have e1 : ¬ 8 + i < 8 := by omega
     have e2 : ¬ 16 + i < 16 := by omega
     have e3 : ¬ 24 + i < 24 := by omega
     have e4 : 8 + i < 16 := by omega
     have e5 : 16 + i < 24 := by omega
     have e6 : ¬ 16 + i < 8 := by omega
     have e7 : ¬ 24 + i < 16 := by omega
     have e8 : ¬ 24 + i < 8 := by omega
     simp [*])

/-- Word `j` of a tabulated file. -/
theorem tabulate16_get (f : Nat → Word) (j : Nat) (hj : j < 16) : (tabulate16 f).getD j 0#32 = f j := by
  interval_cases j <;> rfl

/-- Byte `i` of the file made of the bytes `f` is `f i` (10_state.md R32). -/
theorem fileByte_fileOfBytes (f : Nat → Byte) (i : Nat) (hi : i < 64) :
    fileByte (fileOfBytes f) i = f i := by
  have hj : i / 4 < 16 := by omega
  have hk : i % 4 < 4 := by omega
  rw [fileByte, fileOfBytes, tabulate16_get _ _ hj, lane_le32 _ _ _ _ _ hk]
  split
  · congr 1; omega
  · split
    · congr 1; omega
    · split <;> (congr 1; omega)

/-- Byte `i` of the bytes of a file (40_block_function.md R104). -/
theorem bytesOfFile_get (z : Vector Word 16) (i : Nat) (hi : i < 64) :
    (bytesOfFile z)[i] = fileByte z i := by
  simp [bytesOfFile]

/-- Two files with the same sixty-four bytes are equal. -/
theorem file_ext (a b : Vector Word 16) (h : ∀ i < 64, fileByte a i = fileByte b i) : a = b := by
  ext j hj m hm
  have hm4 : m / 8 < 4 := by omega
  have := h (4 * j + m / 8) (by omega)
  have e1 : (4 * j + m / 8) / 4 = j := by omega
  have e2 : (4 * j + m / 8) % 4 = m / 8 := by omega
  simp only [fileByte, e1, e2, lane] at this
  have h3 := congrArg (fun w : Byte => w.getLsbD (m % 8)) this
  have e3 : 8 * (m / 8) + m % 8 = m := by omega
  have hlt : m % 8 < 8 := by omega
  simp [Vector.getD, hj, hlt, e3] at h3
  simpa [BitVec.getLsbD_eq_getElem hm] using h3

/-- A word is le32 of its four byte lanes (00_scope.md R12, 20_memory.md R61). -/
theorem le32_lane (w : Word) : le32 (lane w 0) (lane w 1) (lane w 2) (lane w 3) = w := by
  apply BitVec.eq_of_getLsbD_eq
  intro i hi
  rw [getLsbD_le32]
  simp only [lane, BitVec.getLsbD_extractLsb']
  interval_cases i <;> rfl

end Sys2Proof.Machine
end

