-- ==== Sys2Proof/Laws/PerInstr.lean ====
section
/-! SUPPORT. Statements about every instruction as syntax, one lemma per constructor. -/

/-! Family TableRow: the code of a well-formed instruction matches its row of spec/opcode_table.json. -/
namespace Sys2Proof.Laws.TableRow

/-- The number that a code is in the table's numbering: the command word, or the descriptor. -/
def number : Code → Nat
  | .cmd w => w.toNat
  | .host d _ => d.toNat

/-- The row's mask. -/
def mask : Instr → Nat
  | .nop => 0xFFFFFFFF
  | .ks _ => 0xFFFF80FF
  | .xor _ => 0xFFFF80FF
  | .clrbuf => 0xFFFFFFFF
  | .zeroize => 0xFFFFFFFF
  | .rd _ _ => 0x703
  | .wr _ _ _ => 0x703

/-- The row's match. -/
def pattern : Instr → Nat
  | .nop => 0x00000000
  | .ks _ => 0x00000001
  | .xor _ => 0x00000002
  | .clrbuf => 0x00000003
  | .zeroize => 0x00000004
  | .rd _ _ => 0x200
  | .wr _ _ _ => 0x600

/-- The instruction's code, masked, is its row's match. -/
def Statement (i : Instr) : Prop :=
  i.wellFormed = true → number (encode i) &&& mask i = pattern i

theorem nop : Statement .nop := by
  intro _; decide

theorem ks (len : BitVec 7) : Statement (.ks len) := by
  unfold Statement; revert len; decide +kernel

theorem xor (len : BitVec 7) : Statement (.xor len) := by
  unfold Statement; revert len; decide +kernel

theorem clrbuf : Statement .clrbuf := by
  intro _; decide

theorem zeroize : Statement .zeroize := by
  intro _; decide

theorem rd (size : Size) (off : BitVec 8) : Statement (.rd size off) := by
  unfold Statement; revert off; cases size <;> decide +kernel

theorem wr (size : Size) (off : BitVec 8) (data : Word) : Statement (.wr size off data) := by
  have h : ∀ off : BitVec 8, legalAccess size off = true →
      (encodeDesc true size off).toNat &&& 0x703 = 0x600 := by cases size <;> decide +kernel
  exact h off

end Sys2Proof.Laws.TableRow
end

