-- ==== Sys2Proof/Laws/State.lean ====
section
/-! SUPPORT. One lemma for each field of State after each shared operation, so that no proof unfolds a
record update. -/

namespace Sys2Proof.Machine

variable (s : State)

/-! ### answer -/

@[simp] theorem answer_ctrl (v : Word) : (answer v s).ctrl = s.ctrl := rfl
@[simp] theorem answer_status (v : Word) : (answer v s).status = s.status := rfl
@[simp] theorem answer_key (v : Word) : (answer v s).key = s.key := rfl
@[simp] theorem answer_iv (v : Word) : (answer v s).iv = s.iv := rfl
@[simp] theorem answer_din (v : Word) : (answer v s).din = s.din := rfl
@[simp] theorem answer_dout (v : Word) : (answer v s).dout = s.dout := rfl
@[simp] theorem answer_x (v : Word) : (answer v s).x = s.x := rfl
@[simp] theorem answer_ks (v : Word) : (answer v s).ks = s.ks := rfl
@[simp] theorem answer_pend (v : Word) : (answer v s).pend = s.pend := rfl
@[simp] theorem answer_left (v : Word) : (answer v s).left = s.left := rfl
@[simp] theorem answer_resetIn (v : Word) : (answer v s).resetIn = s.resetIn := rfl
@[simp] theorem answer_resp (v : Word) : (answer v s).resp = some v := rfl
@[simp] theorem answer_inputs (v : Word) : (answer v s).inputs = s.inputs := rfl

/-! ### answerNone -/

@[simp] theorem answerNone_ctrl : (answerNone s).ctrl = s.ctrl := rfl
@[simp] theorem answerNone_status : (answerNone s).status = s.status := rfl
@[simp] theorem answerNone_key : (answerNone s).key = s.key := rfl
@[simp] theorem answerNone_iv : (answerNone s).iv = s.iv := rfl
@[simp] theorem answerNone_din : (answerNone s).din = s.din := rfl
@[simp] theorem answerNone_dout : (answerNone s).dout = s.dout := rfl
@[simp] theorem answerNone_x : (answerNone s).x = s.x := rfl
@[simp] theorem answerNone_ks : (answerNone s).ks = s.ks := rfl
@[simp] theorem answerNone_pend : (answerNone s).pend = s.pend := rfl
@[simp] theorem answerNone_left : (answerNone s).left = s.left := rfl
@[simp] theorem answerNone_resetIn : (answerNone s).resetIn = s.resetIn := rfl
@[simp] theorem answerNone_resp : (answerNone s).resp = none := rfl
@[simp] theorem answerNone_inputs : (answerNone s).inputs = s.inputs := rfl

/-! ### record -/

@[simp] theorem record_ctrl (e : Err) :
    (record e s).ctrl = s.ctrl := by
  unfold record; split <;> rfl
@[simp] theorem record_key (e : Err) : (record e s).key = s.key := by
  unfold record; split <;> rfl
@[simp] theorem record_iv (e : Err) : (record e s).iv = s.iv := by
  unfold record; split <;> rfl
@[simp] theorem record_din (e : Err) : (record e s).din = s.din := by
  unfold record; split <;> rfl
@[simp] theorem record_dout (e : Err) :
    (record e s).dout = s.dout := by
  unfold record; split <;> rfl
@[simp] theorem record_x (e : Err) : (record e s).x = s.x := by
  unfold record; split <;> rfl
@[simp] theorem record_ks (e : Err) : (record e s).ks = s.ks := by
  unfold record; split <;> rfl
@[simp] theorem record_pend (e : Err) :
    (record e s).pend = s.pend := by
  unfold record; split <;> rfl
@[simp] theorem record_left (e : Err) :
    (record e s).left = s.left := by
  unfold record; split <;> rfl
@[simp] theorem record_resetIn (e : Err) :
    (record e s).resetIn = s.resetIn := by
  unfold record; split <;> rfl
@[simp] theorem record_resp (e : Err) :
    (record e s).resp = s.resp := by
  unfold record; split <;> rfl
@[simp] theorem record_inputs (e : Err) :
    (record e s).inputs = s.inputs := by
  unfold record; split <;> rfl
@[simp] theorem record_status_busy (e : Err) : (record e s).status.busy = s.status.busy := by
  unfold record; split <;> rfl
@[simp] theorem record_status_done (e : Err) : (record e s).status.done = s.status.done := by
  unfold record; split <;> rfl
@[simp] theorem record_status_wrap (e : Err) : (record e s).status.wrap = s.status.wrap := by
  unfold record; split <;> rfl
@[simp] theorem record_status_keymask (e : Err) : (record e s).status.keymask = s.status.keymask := by
  unfold record; split <;> rfl
@[simp] theorem record_status_errv (e : Err) : (record e s).status.errv = true := by
  unfold record; split <;> simp_all
theorem record_status_errcode (e : Err) :
    (record e s).status.errcode = if s.status.errv then s.status.errcode else errCode e := by
  unfold record; split <;> rfl
theorem record_status_errovf (e : Err) :
    (record e s).status.errovf = (s.status.errovf || s.status.errv) := by
  unfold record; split <;> simp_all

/-! ### writeStatus -/

@[simp] theorem writeStatus_ctrl (v : Word) : (writeStatus v s).ctrl = s.ctrl := rfl
@[simp] theorem writeStatus_status (v : Word) :
    (writeStatus v s).status = clearW1C v s.status := rfl
@[simp] theorem writeStatus_key (v : Word) : (writeStatus v s).key = s.key := rfl
@[simp] theorem writeStatus_iv (v : Word) : (writeStatus v s).iv = s.iv := rfl
@[simp] theorem writeStatus_din (v : Word) : (writeStatus v s).din = s.din := rfl
@[simp] theorem writeStatus_dout (v : Word) : (writeStatus v s).dout = s.dout := rfl
@[simp] theorem writeStatus_x (v : Word) : (writeStatus v s).x = s.x := rfl
@[simp] theorem writeStatus_ks (v : Word) : (writeStatus v s).ks = s.ks := rfl
@[simp] theorem writeStatus_pend (v : Word) : (writeStatus v s).pend = s.pend := rfl
@[simp] theorem writeStatus_left (v : Word) : (writeStatus v s).left = s.left := rfl
@[simp] theorem writeStatus_resetIn (v : Word) : (writeStatus v s).resetIn = s.resetIn := rfl
@[simp] theorem writeStatus_resp (v : Word) : (writeStatus v s).resp = s.resp := rfl
@[simp] theorem writeStatus_inputs (v : Word) : (writeStatus v s).inputs = s.inputs := rfl

/-! ### accept -/

@[simp] theorem accept_ctrl (c : Cmd) : (accept c s).ctrl = s.ctrl := rfl
@[simp] theorem accept_status (c : Cmd) :
    (accept c s).status = { s.status with done := false, busy := true } := rfl
@[simp] theorem accept_key (c : Cmd) : (accept c s).key = s.key := rfl
@[simp] theorem accept_iv (c : Cmd) : (accept c s).iv = s.iv := rfl
@[simp] theorem accept_din (c : Cmd) : (accept c s).din = s.din := rfl
@[simp] theorem accept_dout (c : Cmd) : (accept c s).dout = s.dout := rfl
@[simp] theorem accept_x (c : Cmd) : (accept c s).x = s.x := rfl
@[simp] theorem accept_ks (c : Cmd) : (accept c s).ks = s.ks := rfl
@[simp] theorem accept_pend (c : Cmd) : (accept c s).pend = some c := rfl
@[simp] theorem accept_left (c : Cmd) : (accept c s).left = Config.latency := rfl
@[simp] theorem accept_resetIn (c : Cmd) : (accept c s).resetIn = s.resetIn := rfl
@[simp] theorem accept_resp (c : Cmd) : (accept c s).resp = s.resp := rfl
@[simp] theorem accept_inputs (c : Cmd) : (accept c s).inputs = s.inputs := rfl

/-! ### finish -/

@[simp] theorem finish_ctrl : (finish s).ctrl = s.ctrl := rfl
@[simp] theorem finish_status :
    (finish s).status = { s.status with busy := false, done := true } := rfl
@[simp] theorem finish_key : (finish s).key = s.key := rfl
@[simp] theorem finish_iv : (finish s).iv = s.iv := rfl
@[simp] theorem finish_din : (finish s).din = s.din := rfl
@[simp] theorem finish_dout : (finish s).dout = s.dout := rfl
@[simp] theorem finish_x : (finish s).x = Vector.replicate 16 0#32 := rfl
@[simp] theorem finish_ks : (finish s).ks = Vector.replicate 64 0#8 := rfl
@[simp] theorem finish_pend : (finish s).pend = none := rfl
@[simp] theorem finish_left : (finish s).left = 0 := rfl
@[simp] theorem finish_resetIn : (finish s).resetIn = s.resetIn := rfl
@[simp] theorem finish_resp : (finish s).resp = s.resp := rfl
@[simp] theorem finish_inputs : (finish s).inputs = s.inputs := rfl

/-! ### writeCtrl -/

@[simp] theorem writeCtrl_ctrl (v : Word) : (writeCtrl v s).ctrl = ctrlOfWord v := rfl
@[simp] theorem writeCtrl_status (v : Word) : (writeCtrl v s).status = s.status := rfl
@[simp] theorem writeCtrl_key (v : Word) : (writeCtrl v s).key = s.key := rfl
@[simp] theorem writeCtrl_iv (v : Word) : (writeCtrl v s).iv = s.iv := rfl
@[simp] theorem writeCtrl_din (v : Word) : (writeCtrl v s).din = s.din := rfl
@[simp] theorem writeCtrl_dout (v : Word) : (writeCtrl v s).dout = s.dout := rfl
@[simp] theorem writeCtrl_x (v : Word) : (writeCtrl v s).x = s.x := rfl
@[simp] theorem writeCtrl_ks (v : Word) : (writeCtrl v s).ks = s.ks := rfl
@[simp] theorem writeCtrl_pend (v : Word) : (writeCtrl v s).pend = s.pend := rfl
@[simp] theorem writeCtrl_left (v : Word) : (writeCtrl v s).left = s.left := rfl
@[simp] theorem writeCtrl_resetIn (v : Word) : (writeCtrl v s).resetIn = s.resetIn := rfl
@[simp] theorem writeCtrl_resp (v : Word) : (writeCtrl v s).resp = s.resp := rfl
@[simp] theorem writeCtrl_inputs (v : Word) : (writeCtrl v s).inputs = s.inputs := rfl

/-! ### writeKey -/

@[simp] theorem writeKey_ctrl (i : Fin 8) (v : Word) : (writeKey i v s).ctrl = s.ctrl := rfl
@[simp] theorem writeKey_status (i : Fin 8) (v : Word) :
    (writeKey i v s).status = { s.status with keymask := s.status.keymask ||| BitVec.twoPow 8 i.val } := rfl
@[simp] theorem writeKey_key (i : Fin 8) (v : Word) : (writeKey i v s).key = s.key.set i v := rfl
@[simp] theorem writeKey_iv (i : Fin 8) (v : Word) : (writeKey i v s).iv = s.iv := rfl
@[simp] theorem writeKey_din (i : Fin 8) (v : Word) : (writeKey i v s).din = s.din := rfl
@[simp] theorem writeKey_dout (i : Fin 8) (v : Word) : (writeKey i v s).dout = s.dout := rfl
@[simp] theorem writeKey_x (i : Fin 8) (v : Word) : (writeKey i v s).x = s.x := rfl
@[simp] theorem writeKey_ks (i : Fin 8) (v : Word) : (writeKey i v s).ks = s.ks := rfl
@[simp] theorem writeKey_pend (i : Fin 8) (v : Word) : (writeKey i v s).pend = s.pend := rfl
@[simp] theorem writeKey_left (i : Fin 8) (v : Word) : (writeKey i v s).left = s.left := rfl
@[simp] theorem writeKey_resetIn (i : Fin 8) (v : Word) :
    (writeKey i v s).resetIn = s.resetIn := rfl
@[simp] theorem writeKey_resp (i : Fin 8) (v : Word) : (writeKey i v s).resp = s.resp := rfl
@[simp] theorem writeKey_inputs (i : Fin 8) (v : Word) : (writeKey i v s).inputs = s.inputs := rfl

/-! ### writeIv -/

@[simp] theorem writeIv_ctrl (i : Fin 4) (v : Word) : (writeIv i v s).ctrl = s.ctrl := rfl
@[simp] theorem writeIv_status (i : Fin 4) (v : Word) :
    (writeIv i v s).status = { s.status with wrap := false } := rfl
@[simp] theorem writeIv_key (i : Fin 4) (v : Word) : (writeIv i v s).key = s.key := rfl
@[simp] theorem writeIv_iv (i : Fin 4) (v : Word) : (writeIv i v s).iv = s.iv.set i v := rfl
@[simp] theorem writeIv_din (i : Fin 4) (v : Word) : (writeIv i v s).din = s.din := rfl
@[simp] theorem writeIv_dout (i : Fin 4) (v : Word) : (writeIv i v s).dout = s.dout := rfl
@[simp] theorem writeIv_x (i : Fin 4) (v : Word) : (writeIv i v s).x = s.x := rfl
@[simp] theorem writeIv_ks (i : Fin 4) (v : Word) : (writeIv i v s).ks = s.ks := rfl
@[simp] theorem writeIv_pend (i : Fin 4) (v : Word) : (writeIv i v s).pend = s.pend := rfl
@[simp] theorem writeIv_left (i : Fin 4) (v : Word) : (writeIv i v s).left = s.left := rfl
@[simp] theorem writeIv_resetIn (i : Fin 4) (v : Word) : (writeIv i v s).resetIn = s.resetIn := rfl
@[simp] theorem writeIv_resp (i : Fin 4) (v : Word) : (writeIv i v s).resp = s.resp := rfl
@[simp] theorem writeIv_inputs (i : Fin 4) (v : Word) : (writeIv i v s).inputs = s.inputs := rfl

/-! ### writeDin -/

@[simp] theorem writeDin_ctrl (i : Fin 16) (v : Word) : (writeDin i v s).ctrl = s.ctrl := rfl
@[simp] theorem writeDin_status (i : Fin 16) (v : Word) : (writeDin i v s).status = s.status := rfl
@[simp] theorem writeDin_key (i : Fin 16) (v : Word) : (writeDin i v s).key = s.key := rfl
@[simp] theorem writeDin_iv (i : Fin 16) (v : Word) : (writeDin i v s).iv = s.iv := rfl
@[simp] theorem writeDin_din (i : Fin 16) (v : Word) : (writeDin i v s).din = s.din.set i v := rfl
@[simp] theorem writeDin_dout (i : Fin 16) (v : Word) : (writeDin i v s).dout = s.dout := rfl
@[simp] theorem writeDin_x (i : Fin 16) (v : Word) : (writeDin i v s).x = s.x := rfl
@[simp] theorem writeDin_ks (i : Fin 16) (v : Word) : (writeDin i v s).ks = s.ks := rfl
@[simp] theorem writeDin_pend (i : Fin 16) (v : Word) : (writeDin i v s).pend = s.pend := rfl
@[simp] theorem writeDin_left (i : Fin 16) (v : Word) : (writeDin i v s).left = s.left := rfl
@[simp] theorem writeDin_resetIn (i : Fin 16) (v : Word) :
    (writeDin i v s).resetIn = s.resetIn := rfl
@[simp] theorem writeDin_resp (i : Fin 16) (v : Word) : (writeDin i v s).resp = s.resp := rfl
@[simp] theorem writeDin_inputs (i : Fin 16) (v : Word) : (writeDin i v s).inputs = s.inputs := rfl

/-! ### loadKeystream -/

@[simp] theorem loadKeystream_ctrl :
    (loadKeystream s).ctrl = s.ctrl := by
  simp only [loadKeystream]
@[simp] theorem loadKeystream_status :
    (loadKeystream s).status = s.status := by
  simp only [loadKeystream]
@[simp] theorem loadKeystream_key : (loadKeystream s).key = s.key := by
  simp only [loadKeystream]
@[simp] theorem loadKeystream_iv : (loadKeystream s).iv = s.iv := by
  simp only [loadKeystream]
@[simp] theorem loadKeystream_din : (loadKeystream s).din = s.din := by
  simp only [loadKeystream]
@[simp] theorem loadKeystream_dout :
    (loadKeystream s).dout = s.dout := by
  simp only [loadKeystream]
@[simp] theorem loadKeystream_x :
    (loadKeystream s).x = workedState s.key s.iv := by
  simp only [loadKeystream]
@[simp] theorem loadKeystream_ks :
    (loadKeystream s).ks = block s.key s.iv := by
  simp only [loadKeystream]
@[simp] theorem loadKeystream_pend :
    (loadKeystream s).pend = s.pend := by
  simp only [loadKeystream]
@[simp] theorem loadKeystream_left :
    (loadKeystream s).left = s.left := by
  simp only [loadKeystream]
@[simp] theorem loadKeystream_resetIn :
    (loadKeystream s).resetIn = s.resetIn := by
  simp only [loadKeystream]
@[simp] theorem loadKeystream_resp :
    (loadKeystream s).resp = s.resp := by
  simp only [loadKeystream]
@[simp] theorem loadKeystream_inputs :
    (loadKeystream s).inputs = s.inputs := by
  simp only [loadKeystream]

/-! ### counterAdvance -/

@[simp] theorem counterAdvance_ctrl :
    (counterAdvance s).ctrl = s.ctrl := by
  unfold counterAdvance; split <;> rfl
@[simp] theorem counterAdvance_key :
    (counterAdvance s).key = s.key := by
  unfold counterAdvance; split <;> rfl
@[simp] theorem counterAdvance_din :
    (counterAdvance s).din = s.din := by
  unfold counterAdvance; split <;> rfl
@[simp] theorem counterAdvance_dout :
    (counterAdvance s).dout = s.dout := by
  unfold counterAdvance; split <;> rfl
@[simp] theorem counterAdvance_x :
    (counterAdvance s).x = s.x := by
  unfold counterAdvance; split <;> rfl
@[simp] theorem counterAdvance_ks :
    (counterAdvance s).ks = s.ks := by
  unfold counterAdvance; split <;> rfl
@[simp] theorem counterAdvance_pend :
    (counterAdvance s).pend = s.pend := by
  unfold counterAdvance; split <;> rfl
@[simp] theorem counterAdvance_left :
    (counterAdvance s).left = s.left := by
  unfold counterAdvance; split <;> rfl
@[simp] theorem counterAdvance_resetIn :
    (counterAdvance s).resetIn = s.resetIn := by
  unfold counterAdvance; split <;> rfl
@[simp] theorem counterAdvance_resp :
    (counterAdvance s).resp = s.resp := by
  unfold counterAdvance; split <;> rfl
@[simp] theorem counterAdvance_inputs :
    (counterAdvance s).inputs = s.inputs := by
  unfold counterAdvance; split <;> rfl
@[simp] theorem counterAdvance_status_busy : (counterAdvance s).status.busy = s.status.busy := by
  unfold counterAdvance; split <;> rfl
@[simp] theorem counterAdvance_status_done : (counterAdvance s).status.done = s.status.done := by
  unfold counterAdvance; split <;> rfl
@[simp] theorem counterAdvance_status_errv : (counterAdvance s).status.errv = s.status.errv := by
  unfold counterAdvance; split <;> rfl
@[simp] theorem counterAdvance_status_errovf : (counterAdvance s).status.errovf = s.status.errovf := by
  unfold counterAdvance; split <;> rfl
@[simp] theorem counterAdvance_status_errcode : (counterAdvance s).status.errcode = s.status.errcode := by
  unfold counterAdvance; split <;> rfl
@[simp] theorem counterAdvance_status_keymask : (counterAdvance s).status.keymask = s.status.keymask := by
  unfold counterAdvance; split <;> rfl

/-! ### completeNop -/

@[simp] theorem completeNop_ctrl : (completeNop s).ctrl = s.ctrl := rfl
@[simp] theorem completeNop_status : (completeNop s).status = s.status := rfl
@[simp] theorem completeNop_key : (completeNop s).key = s.key := rfl
@[simp] theorem completeNop_iv : (completeNop s).iv = s.iv := rfl
@[simp] theorem completeNop_din : (completeNop s).din = s.din := rfl
@[simp] theorem completeNop_dout : (completeNop s).dout = s.dout := rfl
@[simp] theorem completeNop_x : (completeNop s).x = s.x := rfl
@[simp] theorem completeNop_ks : (completeNop s).ks = s.ks := rfl
@[simp] theorem completeNop_pend : (completeNop s).pend = s.pend := rfl
@[simp] theorem completeNop_left : (completeNop s).left = s.left := rfl
@[simp] theorem completeNop_resetIn : (completeNop s).resetIn = s.resetIn := rfl
@[simp] theorem completeNop_resp : (completeNop s).resp = s.resp := rfl
@[simp] theorem completeNop_inputs : (completeNop s).inputs = s.inputs := rfl

/-! ### completeClrbuf -/

@[simp] theorem completeClrbuf_ctrl : (completeClrbuf s).ctrl = s.ctrl := rfl
@[simp] theorem completeClrbuf_status : (completeClrbuf s).status = s.status := rfl
@[simp] theorem completeClrbuf_key : (completeClrbuf s).key = s.key := rfl
@[simp] theorem completeClrbuf_iv : (completeClrbuf s).iv = s.iv := rfl
@[simp] theorem completeClrbuf_din : (completeClrbuf s).din = Vector.replicate 16 0#32 := rfl
@[simp] theorem completeClrbuf_dout : (completeClrbuf s).dout = Vector.replicate 16 0#32 := rfl
@[simp] theorem completeClrbuf_x : (completeClrbuf s).x = s.x := rfl
@[simp] theorem completeClrbuf_ks : (completeClrbuf s).ks = s.ks := rfl
@[simp] theorem completeClrbuf_pend : (completeClrbuf s).pend = s.pend := rfl
@[simp] theorem completeClrbuf_left : (completeClrbuf s).left = s.left := rfl
@[simp] theorem completeClrbuf_resetIn : (completeClrbuf s).resetIn = s.resetIn := rfl
@[simp] theorem completeClrbuf_resp : (completeClrbuf s).resp = s.resp := rfl
@[simp] theorem completeClrbuf_inputs : (completeClrbuf s).inputs = s.inputs := rfl

/-! ### completeZeroize -/

@[simp] theorem completeZeroize_ctrl : (completeZeroize s).ctrl = s.ctrl := rfl
@[simp] theorem completeZeroize_status :
    (completeZeroize s).status = { s.status with keymask := 0#8, wrap := false } := rfl
@[simp] theorem completeZeroize_key : (completeZeroize s).key = Vector.replicate 8 0#32 := rfl
@[simp] theorem completeZeroize_iv : (completeZeroize s).iv = Vector.replicate 4 0#32 := rfl
@[simp] theorem completeZeroize_din : (completeZeroize s).din = Vector.replicate 16 0#32 := rfl
@[simp] theorem completeZeroize_dout : (completeZeroize s).dout = Vector.replicate 16 0#32 := rfl
@[simp] theorem completeZeroize_x : (completeZeroize s).x = s.x := rfl
@[simp] theorem completeZeroize_ks : (completeZeroize s).ks = s.ks := rfl
@[simp] theorem completeZeroize_pend : (completeZeroize s).pend = s.pend := rfl
@[simp] theorem completeZeroize_left : (completeZeroize s).left = s.left := rfl
@[simp] theorem completeZeroize_resetIn : (completeZeroize s).resetIn = s.resetIn := rfl
@[simp] theorem completeZeroize_resp : (completeZeroize s).resp = s.resp := rfl
@[simp] theorem completeZeroize_inputs : (completeZeroize s).inputs = s.inputs := rfl

/-! ### waitAgain -/

@[simp] theorem waitAgain_ctrl (gaps : List Nat) : (waitAgain gaps s).ctrl = s.ctrl := rfl
@[simp] theorem waitAgain_status (gaps : List Nat) : (waitAgain gaps s).status = s.status := rfl
@[simp] theorem waitAgain_key (gaps : List Nat) : (waitAgain gaps s).key = s.key := rfl
@[simp] theorem waitAgain_iv (gaps : List Nat) : (waitAgain gaps s).iv = s.iv := rfl
@[simp] theorem waitAgain_din (gaps : List Nat) : (waitAgain gaps s).din = s.din := rfl
@[simp] theorem waitAgain_dout (gaps : List Nat) : (waitAgain gaps s).dout = s.dout := rfl
@[simp] theorem waitAgain_x (gaps : List Nat) : (waitAgain gaps s).x = s.x := rfl
@[simp] theorem waitAgain_ks (gaps : List Nat) : (waitAgain gaps s).ks = s.ks := rfl
@[simp] theorem waitAgain_pend (gaps : List Nat) : (waitAgain gaps s).pend = s.pend := rfl
@[simp] theorem waitAgain_left (gaps : List Nat) : (waitAgain gaps s).left = s.left := rfl
@[simp] theorem waitAgain_resetIn (gaps : List Nat) : (waitAgain gaps s).resetIn = s.resetIn := rfl
@[simp] theorem waitAgain_resp (gaps : List Nat) : (waitAgain gaps s).resp = s.resp := rfl
@[simp] theorem waitAgain_inputs (gaps : List Nat) : (waitAgain gaps s).inputs =
    List.replicate (gaps.headD 0 + 1) .clock ++ .wait gaps.tail :: s.inputs := rfl

/-! ### assertReset -/

@[simp] theorem assertReset_ctrl : (assertReset s).ctrl = State.reset.ctrl := rfl
@[simp] theorem assertReset_status : (assertReset s).status = State.reset.status := rfl
@[simp] theorem assertReset_key : (assertReset s).key = State.reset.key := rfl
@[simp] theorem assertReset_iv : (assertReset s).iv = State.reset.iv := rfl
@[simp] theorem assertReset_din : (assertReset s).din = State.reset.din := rfl
@[simp] theorem assertReset_dout : (assertReset s).dout = State.reset.dout := rfl
@[simp] theorem assertReset_x : (assertReset s).x = State.reset.x := rfl
@[simp] theorem assertReset_ks : (assertReset s).ks = State.reset.ks := rfl
@[simp] theorem assertReset_pend : (assertReset s).pend = State.reset.pend := rfl
@[simp] theorem assertReset_left : (assertReset s).left = State.reset.left := rfl
@[simp] theorem assertReset_resetIn : (assertReset s).resetIn = true := rfl
@[simp] theorem assertReset_resp : (assertReset s).resp = s.resp := rfl
@[simp] theorem assertReset_inputs : (assertReset s).inputs = s.inputs := rfl

/-! ### releaseReset -/

@[simp] theorem releaseReset_ctrl : (releaseReset s).ctrl = s.ctrl := rfl
@[simp] theorem releaseReset_status : (releaseReset s).status = s.status := rfl
@[simp] theorem releaseReset_key : (releaseReset s).key = s.key := rfl
@[simp] theorem releaseReset_iv : (releaseReset s).iv = s.iv := rfl
@[simp] theorem releaseReset_din : (releaseReset s).din = s.din := rfl
@[simp] theorem releaseReset_dout : (releaseReset s).dout = s.dout := rfl
@[simp] theorem releaseReset_x : (releaseReset s).x = s.x := rfl
@[simp] theorem releaseReset_ks : (releaseReset s).ks = s.ks := rfl
@[simp] theorem releaseReset_pend : (releaseReset s).pend = s.pend := rfl
@[simp] theorem releaseReset_left : (releaseReset s).left = s.left := rfl
@[simp] theorem releaseReset_resetIn : (releaseReset s).resetIn = false := rfl
@[simp] theorem releaseReset_resp : (releaseReset s).resp = s.resp := rfl
@[simp] theorem releaseReset_inputs : (releaseReset s).inputs = s.inputs := rfl

/-! ### takeInput -/

@[simp] theorem takeInput_ctrl : (takeInput s).ctrl = s.ctrl := rfl
@[simp] theorem takeInput_status : (takeInput s).status = s.status := rfl
@[simp] theorem takeInput_key : (takeInput s).key = s.key := rfl
@[simp] theorem takeInput_iv : (takeInput s).iv = s.iv := rfl
@[simp] theorem takeInput_din : (takeInput s).din = s.din := rfl
@[simp] theorem takeInput_dout : (takeInput s).dout = s.dout := rfl
@[simp] theorem takeInput_x : (takeInput s).x = s.x := rfl
@[simp] theorem takeInput_ks : (takeInput s).ks = s.ks := rfl
@[simp] theorem takeInput_pend : (takeInput s).pend = s.pend := rfl
@[simp] theorem takeInput_left : (takeInput s).left = s.left := rfl
@[simp] theorem takeInput_resetIn : (takeInput s).resetIn = s.resetIn := rfl
@[simp] theorem takeInput_resp : (takeInput s).resp = s.resp := rfl
@[simp] theorem takeInput_inputs : (takeInput s).inputs = s.inputs.tail := rfl

/-! ### completeKs, completeXor -/

@[simp] theorem completeKs_ctrl (len : BitVec 7) : (completeKs len s).ctrl = s.ctrl := by
  simp [completeKs]
@[simp] theorem completeKs_key (len : BitVec 7) : (completeKs len s).key = s.key := by
  simp [completeKs]
@[simp] theorem completeKs_din (len : BitVec 7) : (completeKs len s).din = s.din := by
  simp [completeKs]
@[simp] theorem completeKs_x (len : BitVec 7) : (completeKs len s).x = workedState s.key s.iv := by
  simp [completeKs]
@[simp] theorem completeKs_ks (len : BitVec 7) : (completeKs len s).ks = block s.key s.iv := by
  simp [completeKs]
@[simp] theorem completeKs_pend (len : BitVec 7) : (completeKs len s).pend = s.pend := by
  simp [completeKs]
@[simp] theorem completeKs_left (len : BitVec 7) : (completeKs len s).left = s.left := by
  simp [completeKs]
@[simp] theorem completeKs_resetIn (len : BitVec 7) : (completeKs len s).resetIn = s.resetIn := by
  simp [completeKs]
@[simp] theorem completeKs_resp (len : BitVec 7) : (completeKs len s).resp = s.resp := by
  simp [completeKs]
@[simp] theorem completeKs_inputs (len : BitVec 7) : (completeKs len s).inputs = s.inputs := by
  simp [completeKs]
@[simp] theorem completeKs_status_busy (len : BitVec 7) :
    (completeKs len s).status.busy = s.status.busy := by
  simp [completeKs]
@[simp] theorem completeKs_status_done (len : BitVec 7) :
    (completeKs len s).status.done = s.status.done := by
  simp [completeKs]
@[simp] theorem completeKs_status_errv (len : BitVec 7) :
    (completeKs len s).status.errv = s.status.errv := by
  simp [completeKs]
@[simp] theorem completeKs_status_errovf (len : BitVec 7) :
    (completeKs len s).status.errovf = s.status.errovf := by
  simp [completeKs]
@[simp] theorem completeKs_status_errcode (len : BitVec 7) :
    (completeKs len s).status.errcode = s.status.errcode := by
  simp [completeKs]
@[simp] theorem completeKs_status_keymask (len : BitVec 7) :
    (completeKs len s).status.keymask = s.status.keymask := by
  simp [completeKs]
@[simp] theorem completeXor_ctrl (len : BitVec 7) : (completeXor len s).ctrl = s.ctrl := by
  simp [completeXor]
@[simp] theorem completeXor_key (len : BitVec 7) : (completeXor len s).key = s.key := by
  simp [completeXor]
@[simp] theorem completeXor_din (len : BitVec 7) : (completeXor len s).din = s.din := by
  simp [completeXor]
@[simp] theorem completeXor_x (len : BitVec 7) : (completeXor len s).x = workedState s.key s.iv := by
  simp [completeXor]
@[simp] theorem completeXor_ks (len : BitVec 7) : (completeXor len s).ks = block s.key s.iv := by
  simp [completeXor]
@[simp] theorem completeXor_pend (len : BitVec 7) : (completeXor len s).pend = s.pend := by
  simp [completeXor]
@[simp] theorem completeXor_left (len : BitVec 7) : (completeXor len s).left = s.left := by
  simp [completeXor]
@[simp] theorem completeXor_resetIn (len : BitVec 7) : (completeXor len s).resetIn = s.resetIn := by
  simp [completeXor]
@[simp] theorem completeXor_resp (len : BitVec 7) : (completeXor len s).resp = s.resp := by
  simp [completeXor]
@[simp] theorem completeXor_inputs (len : BitVec 7) : (completeXor len s).inputs = s.inputs := by
  simp [completeXor]
@[simp] theorem completeXor_status_busy (len : BitVec 7) :
    (completeXor len s).status.busy = s.status.busy := by
  simp [completeXor]
@[simp] theorem completeXor_status_done (len : BitVec 7) :
    (completeXor len s).status.done = s.status.done := by
  simp [completeXor]
@[simp] theorem completeXor_status_errv (len : BitVec 7) :
    (completeXor len s).status.errv = s.status.errv := by
  simp [completeXor]
@[simp] theorem completeXor_status_errovf (len : BitVec 7) :
    (completeXor len s).status.errovf = s.status.errovf := by
  simp [completeXor]
@[simp] theorem completeXor_status_errcode (len : BitVec 7) :
    (completeXor len s).status.errcode = s.status.errcode := by
  simp [completeXor]
@[simp] theorem completeXor_status_keymask (len : BitVec 7) :
    (completeXor len s).status.keymask = s.status.keymask := by
  simp [completeXor]

theorem completeKs_dout (len : BitVec 7) :
    (completeKs len s).dout = keepBytes len fun i => (block s.key s.iv).getD i 0#8 := by
  simp [completeKs]

theorem completeXor_dout (len : BitVec 7) :
    (completeXor len s).dout =
      keepBytes len fun i => fileByte s.din i ^^^ (block s.key s.iv).getD i 0#8 := by
  simp [completeXor]

/-- The counter advance reads CTRL, IV and WRAP only. -/
theorem counterAdvance_iv_congr (t : State) (hc : s.ctrl = t.ctrl) (hi : s.iv = t.iv) :
    (counterAdvance s).iv = (counterAdvance t).iv := by
  simp only [counterAdvance, hc, hi]; split <;> rfl

theorem completeKs_iv (len : BitVec 7) : (completeKs len s).iv = (counterAdvance s).iv :=
  counterAdvance_iv_congr _ _ rfl rfl

theorem completeXor_iv (len : BitVec 7) : (completeXor len s).iv = (counterAdvance s).iv :=
  counterAdvance_iv_congr _ _ rfl rfl

theorem counterAdvance_wrap_congr (t : State) (hc : s.ctrl = t.ctrl) (hi : s.iv = t.iv)
    (hw : s.status.wrap = t.status.wrap) :
    (counterAdvance s).status.wrap = (counterAdvance t).status.wrap := by
  simp only [counterAdvance, hc, hi, hw]; split <;> rfl

theorem completeKs_wrap (len : BitVec 7) :
    (completeKs len s).status.wrap = (counterAdvance s).status.wrap :=
  counterAdvance_wrap_congr _ _ rfl rfl rfl

theorem completeXor_wrap (len : BitVec 7) :
    (completeXor len s).status.wrap = (counterAdvance s).status.wrap :=
  counterAdvance_wrap_congr _ _ rfl rfl rfl

end Sys2Proof.Machine
end

