-- ==== Sys2Proof/Laws/Words.lean ====
section
/-! SUPPORT. The bits of the words that are put together from fields. -/

namespace Sys2Proof

/-- Bit `i` of a command word (30_encoding.md R80). -/
theorem getLsbD_encodeCmd (c : Cmd) (i : Nat) :
    (encodeCmd c).getLsbD i =
      if i < 4 then (cmdOp c).getLsbD i else if i < 8 then false else (cmdLen c).getLsbD (i - 8) := by
  unfold encodeCmd
  rw [BitVec.getLsbD_append, BitVec.getLsbD_append, BitVec.getLsbD_append]
  have h2 : (i - 4 < 4) = (i < 8) := by simp only [eq_iff_iff]; omega
  simp only [Nat.sub_sub, Nat.reduceAdd, h2, BitVec.getLsbD_zero]
  split
  · rfl
  · split
    · rfl
    · split
      · rfl
      · exact (BitVec.getLsbD_of_ge _ _ (by omega)).symm

/-- Bit `i` of a descriptor (30_encoding.md R84). -/
theorem getLsbD_encodeDesc (we : Bool) (size : Size) (off : BitVec 8) (i : Nat) :
    (encodeDesc we size off).getLsbD i =
      if i < 8 then off.getLsbD i else if i < 10 then (sizeBits size).getLsbD (i - 8)
      else decide (i = 10) && we := by
  unfold encodeDesc
  rw [BitVec.getLsbD_append, BitVec.getLsbD_append]
  have h2 : (i - 8 < 2) = (i < 10) := by simp only [eq_iff_iff]; omega
  simp only [Nat.sub_sub, Nat.reduceAdd, h2]
  split
  · rfl
  · split
    · rfl
    · have h3 : (i - 10 = 0) = (i = 10) := by simp only [eq_iff_iff]; omega
      simp [BitVec.getLsbD_ofBool, h3]

namespace Machine

/-- Bit `i` of what CTRL reads (10_state.md R23). -/
theorem getLsbD_ctrlWord (c : Ctrl) (i : Nat) :
    (ctrlWord c).getLsbD i =
      (decide (i = 0) && c.ctr64 || decide (i = 1) && c.doneIe || decide (i = 2) && c.errIe) := by
  unfold ctrlWord
  rw [BitVec.getLsbD_append, BitVec.getLsbD_append, BitVec.getLsbD_append]
  by_cases h0 : i = 0
  · simp [h0]
  by_cases h1 : i = 1
  · simp [h1]
  by_cases h2 : i = 2
  · simp [h2]
  have h3 : ¬ i < 1 := by omega
  have h4 : ¬ i - 1 < 1 := by omega
  have h5 : ¬ i - 1 - 1 < 1 := by omega
  simp only [h0, h1, h2, h3, h4, h5, if_false, BitVec.getLsbD_zero, decide_false, Bool.false_and, Bool.or_self]

/-- Bit `i` of what STATUS reads (10_state.md R24). -/
theorem getLsbD_statusWord (st : Status) (i : Nat) :
    (statusWord st).getLsbD i =
      if i = 0 then st.busy else if i = 1 then st.done else if i = 2 then st.errv
      else if i = 3 then st.errovf else if i < 7 then st.errcode.getLsbD (i - 4)
      else if i = 7 then false else if i = 8 then keyv st else if i = 9 then st.wrap
      else if i < 16 then false else st.keymask.getLsbD (i - 16) := by
  unfold statusWord
  iterate 10 rw [BitVec.getLsbD_append]
  by_cases h : i < 24
  · interval_cases i <;> simp
  · have e : ∀ k, k < 24 → (i < k) = False := by intro k hk; simp only [eq_iff_iff, iff_false]; omega
    have f : ∀ k, k < 24 → (i = k) = False := by intro k hk; simp only [eq_iff_iff, iff_false]; omega
    have hm : st.keymask.getLsbD (i - 16) = false := BitVec.getLsbD_of_ge _ _ (by omega)
    have g1 : ¬ i - 1 < 1 := by omega
    have g2 : ¬ i - 2 < 1 := by omega
    have g3 : ¬ i - 3 < 1 := by omega
    have g4 : ¬ i - 4 < 3 := by omega
    have g5 : ¬ i - 7 < 1 := by omega
    have g6 : ¬ i - 8 < 1 := by omega
    have g7 : ¬ i - 9 < 1 := by omega
    have g8 : ¬ i - 10 < 6 := by omega
    have g9 : ¬ i - 16 < 8 := by omega
    simp [e, f, hm, Nat.sub_sub, g1, g2, g3, g4, g5, g6, g7, g8, g9]

end Machine

end Sys2Proof
end

