-- ==== Sys2Proof/Laws/Step.lean ====
section
/-! SUPPORT. What each shared operation, each meaning and the step can do, said once. -/

namespace Sys2Proof.Machine

/-- Recording an error is `withError` on STATUS and nothing else (60_exceptions.md R172). -/
theorem record_eq (e : Err) (s : State) :
    record e s = { s with status := withError (errCode e) s.status } := by
  unfold record withError
  cases h : s.status.errv <;> simp [h]

/-- Issue refuses with BUSY, refuses with the failing check, or accepts (43_register_access.md R152,
R159). -/
theorem issue_cases (check : Option Err) (c : Cmd) (s : State) :
    (s.status.busy = true ∧ issue check c s = record .busy s) ∨
    (∃ e, s.status.busy = false ∧ check = some e ∧ issue check c s = record e s) ∨
    (s.status.busy = false ∧ check = none ∧ issue check c s = accept c s) := by
  unfold issue
  cases hb : s.status.busy
  · cases check with
    | none => exact .inr (.inr ⟨rfl, rfl, rfl⟩)
    | some e => exact .inr (.inl ⟨e, rfl, rfl, rfl⟩)
  · exact .inl ⟨rfl, rfl⟩

/-- The checks of KS and XOR pass exactly on a legal LEN, a whole key and no wrap
(41_keystream_commands.md R122). -/
theorem checkKsXor_none (len : BitVec 7) (st : Status) :
    checkKsXor len st = none ↔
      legalLen len = true ∧ st.keymask = 0xFF#8 ∧ st.wrap = false := by
  unfold checkKsXor legalLen
  split
  · simp; omega
  · rename_i h
    have h1 : 1 ≤ len.toNat ∧ len.toNat ≤ 64 := by omega
    split
    · simp_all
    · split <;> simp_all

/-- The operand check of a command: R122's for KS and XOR, none for the others
(43_register_access.md R159). -/
def cmdCheck (c : Cmd) (st : Status) : Option Err :=
  match c with
  | .nop => none
  | .ks len => checkKsXor len st
  | .xor len => checkKsXor len st
  | .clrbuf => none
  | .zeroize => none

/-- Every command's meaning is one issue with its check (43_register_access.md R159). -/
theorem exec_toInstr (c : Cmd) (s : State) :
    exec c.toInstr s = .next (issue (cmdCheck c s.status) c (answerNone s)) := by
  cases c <;> rfl

/-- A read records ACCESS and returns 0, or returns the register and changes nothing
(43_register_access.md R150). -/
theorem execRd_cases (size : Size) (off : BitVec 8) (s : State) :
    execRd size off s = .next (answer 0#32 (record .access s)) ∨
    (plainAccess size off = true ∧ classOf off ≠ .reserved ∧
      execRd size off s = .next (answer (readReg (classOf off) s) s)) := by
  unfold execRd
  cases hp : plainAccess size off
  · exact .inl rfl
  · cases hc : classOf off <;> simp

/-- What a write in the plain form does, register by register (43_register_access.md R153). -/
theorem execWr_plain (size : Size) (off : BitVec 8) (v : Word) (s : State)
    (h : plainAccess size off = true) :
    execWr size off v s = writeReg (classOf off) v (answerNone s) := by
  simp [execWr, h]

/-- A narrow or misaligned write records ACCESS (20_memory.md R62, R63). -/
theorem execWr_refused (size : Size) (off : BitVec 8) (v : Word) (s : State)
    (h : plainAccess size off = false) :
    execWr size off v s = .next (record .access (answerNone s)) := by
  simp [execWr, h]

/-- A CMD write records ILLEGAL_CMD, or issues the decoded command (43_register_access.md R159). -/
theorem writeCmd_cases (v : Word) (s : State) :
    (∃ r, decodeCmd v = .reject r ∧ writeCmd v s = .next (record .illegalCmd s)) ∨
    (∃ c, decodeCmd v = .ok c ∧ writeCmd v s = exec c.toInstr s) := by
  unfold writeCmd
  cases hd : decodeCmd v with
  | reject r => exact .inl ⟨r, rfl, rfl⟩
  | ok c => exact .inr ⟨c, rfl, by cases c <;> rfl⟩

/-- What a write can do: record an error, or write the one register its offset names, or run the command
its word decodes to (43_register_access.md R153). -/
theorem execWr_cases (size : Size) (off : BitVec 8) (v : Word) (s : State) :
    (∃ e, execWr size off v s = .next (record e (answerNone s))) ∨
    (plainAccess size off = true ∧
      (classOf off = .status ∧ execWr size off v s = .next (writeStatus v (answerNone s)) ∨
        s.status.busy = false ∧
          (classOf off = .ctrl ∧ execWr size off v s = .next (writeCtrl v (answerNone s)) ∨
            (∃ i, classOf off = .key i ∧ execWr size off v s = .next (writeKey i v (answerNone s))) ∨
            (∃ i, classOf off = .iv i ∧ execWr size off v s = .next (writeIv i v (answerNone s))) ∨
            (∃ i, classOf off = .din i ∧ execWr size off v s = .next (writeDin i v (answerNone s))) ∨
            ∃ c, classOf off = .cmd ∧ decodeCmd v = .ok c ∧
              execWr size off v s = exec c.toInstr (answerNone s)))) := by
  cases hp : plainAccess size off
  · exact .inl ⟨.access, execWr_refused size off v s hp⟩
  · rw [execWr_plain size off v s hp]
    cases hc : classOf off with
    | id => exact .inl ⟨.access, rfl⟩
    | dout i => exact .inl ⟨.access, rfl⟩
    | reserved => exact .inl ⟨.access, rfl⟩
    | status => exact .inr ⟨rfl, .inl ⟨rfl, rfl⟩⟩
    | cmd =>
      cases hb : s.status.busy
      all_goals simp only [writeReg, unlessBusy, answerNone_status, hb, if_true, Bool.false_eq_true, if_false]
      · rcases writeCmd_cases v (answerNone s) with ⟨r, -, h⟩ | ⟨c, hd, h⟩
        · exact .inl ⟨.illegalCmd, h⟩
        · simp [h, hd]
      · exact .inl ⟨.busy, rfl⟩
    | _ =>
      cases hb : s.status.busy
      all_goals simp only [writeReg, unlessBusy, answerNone_status, hb, if_true, Bool.false_eq_true, if_false]
      all_goals first
        | exact .inl ⟨.busy, rfl⟩
        | simp

/-- The counter advance changes IV and WRAP only (41_keystream_commands.md R124). -/
theorem counterAdvance_eq (s : State) :
    ∃ iv w, counterAdvance s = { s with iv := iv, status := { s.status with wrap := w } } := by
  unfold counterAdvance
  split <;> exact ⟨_, _, rfl⟩

/-- What every completion does and leaves (70_reset_and_hazards.md R205). -/
theorem complete_common (c : Cmd) (s : State) :
    (complete c s).status.busy = false ∧ (complete c s).status.done = true ∧
    (complete c s).pend = none ∧ (complete c s).left = 0 ∧
    (complete c s).x = Vector.replicate 16 0#32 ∧ (complete c s).ks = Vector.replicate 64 0#8 ∧
    (complete c s).ctrl = s.ctrl ∧ (complete c s).status.errv = s.status.errv ∧
    (complete c s).status.errcode = s.status.errcode ∧
    (complete c s).status.errovf = s.status.errovf ∧ (complete c s).resetIn = s.resetIn ∧
    (complete c s).resp = s.resp ∧ (complete c s).inputs = s.inputs := by
  cases c <;> simp [complete, completeCmd, finish, completeNop, completeKs, completeXor, completeClrbuf,
    completeZeroize, loadKeystream]

/-- A clock cycle does nothing, completes the pending command, or lowers LEFT (10_state.md R35). -/
theorem clockCycle_cases (s : State) :
    ((s.resetIn = true ∨ s.pend = none) ∧ clockCycle s = s) ∨
    (∃ c, s.resetIn = false ∧ s.pend = some c ∧ s.left ≤ 1 ∧ clockCycle s = complete c s) ∨
    (∃ c, s.resetIn = false ∧ s.pend = some c ∧ 1 < s.left ∧
      clockCycle s = { s with left := s.left - 1 }) := by
  unfold clockCycle
  cases hr : s.resetIn
  · cases hp : s.pend with
    | none => exact .inl ⟨.inr rfl, rfl⟩
    | some c =>
      by_cases hl : s.left ≤ 1
      · exact .inr (.inl ⟨c, rfl, rfl, hl, by simp [hl]⟩)
      · exact .inr (.inr ⟨c, rfl, rfl, by omega, by simp [hl]⟩)
  · exact .inl ⟨.inl rfl, rfl⟩

/-- One turn of `wait` returns STATUS, and goes on exactly if BUSY = 1 (30_encoding.md R94). -/
theorem hostWait_eq (gaps : List Nat) (s : State) :
    hostWait gaps s =
      .next (if s.status.busy then waitAgain gaps (answer (statusWord s.status) s)
        else answer (statusWord s.status) s) := by
  have h : exec (.rd .word 0x04#8) s = .next (answer (statusWord s.status) s) := rfl
  have hb : waitEnds (answer (statusWord s.status) s) = !s.status.busy := by
    simp only [waitEnds, answer_resp, getLsbD_statusWord, if_true]
  unfold hostWait
  rw [h]
  cases hs : s.status.busy <;> simp only [hb, hs] <;> rfl

/-- The step by its next input (00_scope.md R13, 70_reset_and_hazards.md R201, R206). -/
theorem step_cases {s t : State} (h : step s = .next t) :
    (∃ d v, nextInput s = .txn d v ∧ s.resetIn = false ∧ exec (decodeTxn d v) (takeInput s) = .next t) ∨
    (nextInput s = .clock ∧ t = clockCycle (takeInput s)) ∨
    (nextInput s = .assertReset ∧ t = assertReset (takeInput s)) ∨
    (nextInput s = .releaseReset ∧ t = releaseReset (takeInput s)) ∨
    (∃ gaps, nextInput s = .wait gaps ∧ s.resetIn = false ∧
      t = if s.status.busy then waitAgain gaps (answer (statusWord s.status) (takeInput s))
        else answer (statusWord s.status) (takeInput s)) := by
  unfold step at h
  cases hn : nextInput s with
  | txn d v =>
    rw [hn] at h
    cases hr : s.resetIn
    · exact .inl ⟨d, v, rfl, rfl, by simpa [hr] using h⟩
    · simp [hr] at h
  | clock => rw [hn] at h; exact .inr (.inl ⟨rfl, (Host.Outcome.next.inj h).symm⟩)
  | assertReset => rw [hn] at h; exact .inr (.inr (.inl ⟨rfl, (Host.Outcome.next.inj h).symm⟩))
  | releaseReset => rw [hn] at h; exact .inr (.inr (.inr (.inl ⟨rfl, (Host.Outcome.next.inj h).symm⟩)))
  | wait gaps =>
    rw [hn] at h
    cases hr : s.resetIn
    · simp only [hr, Bool.false_eq_true, if_false, hostWait_eq] at h
      exact .inr (.inr (.inr (.inr ⟨gaps, rfl, rfl, (Host.Outcome.next.inj h).symm⟩)))
    · simp [hr] at h

/-- A run whose first step answers `t` is the rest of the run from `t`. -/
theorem run_succ {s t : State} (h : step s = .next t) (k : Nat) :
    Host.Core.run core (k + 1) s = Host.Core.run core k t := by
  have h' : core.step s = .next t := h
  have e : ∀ (M : Host.Core) (a b : M.State), M.step a = .next b → M.run (k + 1) a = M.run k b := by
    intro M a b hab
    simp only [Host.Core.run, hab]
  exact e core s t h'

end Sys2Proof.Machine
end

