-- ==== Sys2Proof/Machine/Asm.lean ====
section
/-! DEFINITION. Assembler text and the listing line (30_encoding.md R92, R93, R95). -/

namespace Sys2Proof.Machine

/-- A hexadecimal digit. -/
def hexDigit (n : Nat) : Char :=
  if n < 10 then Char.ofNat (48 + n) else Char.ofNat (87 + n)

/-- The low `n` hexadecimal digits of a number, most significant first. -/
def hexDigits : Nat → Nat → List Char
  | 0, _ => []
  | n + 1, w => hexDigits n (w / 16) ++ [hexDigit (w % 16)]

/-- `0x` and `n` hexadecimal digits. -/
def hexText (n w : Nat) : String := "0x" ++ String.ofList (hexDigits n w)

/-- The name of a register (10_state.md R21), or `@<offset>` (30_encoding.md R92). -/
def regText (off : BitVec 8) : String :=
  match classOf off with
  | .ctrl => "CTRL"
  | .status => "STATUS"
  | .cmd => "CMD"
  | .id => "ID"
  | .key i => "KEY" ++ Nat.repr i.val
  | .iv i => "IV" ++ Nat.repr i.val
  | .din i => "DIN" ++ Nat.repr i.val
  | .dout i => "DOUT" ++ Nat.repr i.val
  | .reserved => "@" ++ hexText 2 off.toNat

/-- The suffix of a narrow access; SIZE 11 has no spelling (30_encoding.md R92). -/
def sizeText : Size → Option String
  | .byte => some ".b"
  | .half => some ".h"
  | .word => some ""
  | .reserved => none

/-- The mnemonic of a command (30_encoding.md R93). -/
def cmdText : Cmd → String
  | .nop => "nop"
  | .ks len => "ks " ++ Nat.repr len.toNat
  | .xor len => "xor " ++ Nat.repr len.toNat
  | .clrbuf => "clrbuf"
  | .zeroize => "zeroize"

/-- A write's text: a command's mnemonic where it writes a command word to CMD (30_encoding.md R93). -/
def wrText (suffix : String) (off : BitVec 8) (data : Word) : String :=
  let plain := "wr" ++ suffix ++ " " ++ regText off ++ ", " ++ hexText 8 data.toNat
  if suffix = "" ∧ classOf off = .cmd then
    match decodeCmd data with
    | .ok c => cmdText c
    | .reject _ => plain
  else plain

/-- An instruction's text (30_encoding.md R92, R93); none for SIZE 11, which has no spelling. -/
def asmText : Instr → Option String
  | .nop => some (cmdText .nop)
  | .ks len => some (cmdText (.ks len))
  | .xor len => some (cmdText (.xor len))
  | .clrbuf => some (cmdText .clrbuf)
  | .zeroize => some (cmdText .zeroize)
  | .rd size off => (sizeText size).map fun x => "rd" ++ x ++ " " ++ regText off
  | .wr size off data => (sizeText size).map fun x => wrText x off data

/-- The descriptor column: 3 hexadecimal digits (30_encoding.md R95). -/
def descColumn (d : BitVec 11) : List Char := hexDigits 3 d.toNat

/-- The data column: 8 hexadecimal digits, or `--------` for a read (30_encoding.md R95). -/
def dataColumn (d : BitVec 11) (data : Word) : List Char :=
  if weField d then hexDigits 8 data.toNat else List.replicate 8 '-'

/-- A listing line: descriptor, data, assembly (30_encoding.md R95). -/
def listingLine (d : BitVec 11) (data : Word) : Option String :=
  (asmText (decodeTxn d data)).map fun x =>
    String.ofList (descColumn d) ++ " " ++ String.ofList (dataColumn d data) ++ "  " ++ x

end Sys2Proof.Machine
end

