-- ==== Sys2Proof/Tests/Slice0.lean ====
section
/-! SUPPORT. Tests with expected values from spec/95_test_vectors.md (the vector is named in each comment),
and one witness for the hypotheses of each statement of Certificates/Slice0/Obligations.lean. -/

namespace Sys2Proof.Tests

open Sys2Proof Sys2Proof.Machine

/-! ### States -/

/-- Key 00..1f loaded (V2), with an IV, idle. -/
def keyed (iv : Vector Word 4) : State :=
  { State.reset with
    key := #v[0x03020100#32, 0x07060504#32, 0x0b0a0908#32, 0x0f0e0d0c#32, 0x13121110#32, 0x17161514#32,
      0x1b1a1918#32, 0x1f1e1d1c#32]
    iv := iv
    status := { Status.reset with keymask := 0xFF#8 } }

/-- The same with CTR64 = 0. -/
def keyed32 (iv : Vector Word 4) : State :=
  { keyed iv with ctrl := { ctr64 := false, doneIe := false, errIe := false } }

/-- A command in flight with `n` cycles to go. -/
def pending (c : Cmd) (n : Nat) (s : State) : State :=
  { s with pend := some c, left := n, status := { s.status with busy := true, done := false } }

/-- The last cycle of a command. -/
def completed (c : Cmd) (s : State) : State := clockCycle (pending c 1 s)

/-- The IV of V2. -/
def ivV2 : Vector Word 4 := #v[0x00000001#32, 0x09000000#32, 0x4a000000#32, 0x00000000#32]

/-- Keys and IV zero, whole key, idle. -/
def ready : State := keyed (Vector.replicate 4 0#32)

/-- A KS in flight. -/
def busyKs : State := pending (.ks 64#7) Config.latency ready

/-- An error recorded: ACCESS. -/
def erred : State := { ready with status := { ready.status with errv := true, errcode := 6#3 } }

/-! ### WellFormed refuses each ill-formed kind of term -/

theorem test_wf_len_low : Instr.wellFormed (.ks 0#7) = false ∧ Instr.wellFormed (.xor 0#7) = false := by
  decide
theorem test_wf_len_high : Instr.wellFormed (.ks 65#7) = false ∧ Instr.wellFormed (.xor 65#7) = false := by
  decide
theorem test_wf_size : Instr.wellFormed (.rd .byte 0x04#8) = false ∧
    Instr.wellFormed (.wr .half 0x08#8 0#32) = false ∧
    Instr.wellFormed (.rd .reserved 0x04#8) = false := by decide
theorem test_wf_align : Instr.wellFormed (.rd .word 0x21#8) = false ∧
    Instr.wellFormed (.wr .word 0x22#8 0#32) = false := by decide
theorem test_wf_legal : Instr.wellFormed (.ks 1#7) ∧ Instr.wellFormed (.xor 64#7) ∧
    Instr.wellFormed (.rd .word 0xFC#8) ∧ Instr.wellFormed (.wr .word 0x20#8 0#32) ∧
    Instr.wellFormed .nop ∧ Instr.wellFormed .clrbuf ∧ Instr.wellFormed .zeroize := by decide

/-! ### Words written out from 30_encoding.md R80 (RSV1_LEN_RSV0_OP) and R84 (WE_SIZE_OFF) -/

theorem test_decode_nop : decode (.cmd 0b00000000000000000_0000000_0000_0000#32) = .ok .nop := by decide
theorem test_decode_ks : decode (.cmd 0b00000000000000000_0100000_0000_0001#32) = .ok (.ks 32#7) := by
  decide
theorem test_decode_xor : decode (.cmd 0b00000000000000000_0110010_0000_0010#32) = .ok (.xor 50#7) := by
  decide
theorem test_decode_clrbuf : decode (.cmd 0b00000000000000000_0000000_0000_0011#32) = .ok .clrbuf := by
  decide
theorem test_decode_zeroize : decode (.cmd 0b00000000000000000_0000000_0000_0100#32) = .ok .zeroize := by
  decide
theorem test_decode_rd : decode (.host 0b0_10_11111100#11 0#32) = .ok (.rd .word 0xFC#8) ∧
    decode (.host 0b0_00_00000100#11 0#32) = .ok (.rd .byte 0x04#8) := by decide
theorem test_decode_wr : decode (.host 0b1_10_00100000#11 7#32) = .ok (.wr .word 0x20#8 7#32) ∧
    decode (.host 0b1_01_00100010#11 7#32) = .ok (.wr .half 0x22#8 7#32) := by decide
/-- T17: the six illegal words. -/
theorem test_decode_illegal :
    decode (.cmd 0x00000005#32) = .reject .reservedOp ∧ decode (.cmd 0x0000000F#32) = .reject .reservedOp ∧
    decode (.cmd 0x00000081#32) = .reject .reservedBits ∧
    decode (.cmd 0x00000103#32) = .reject .lenNotZero ∧
    decode (.cmd 0x00004000#32) = .reject .lenNotZero ∧
    decode (.cmd 0x00008000#32) = .reject .reservedBits := by decide
/-- 30_encoding.md R83 and R85: assembled words. -/
theorem test_encode : encode (.ks 64#7) = .cmd 0x00004001#32 ∧ encode (.xor 64#7) = .cmd 0x00004002#32 ∧
    encode (.rd .word 0x04#8) = .host 0x204#11 0#32 ∧
    encode (.wr .word 0x08#8 1#32) = .host 0x608#11 1#32 := by decide
/-- The opcode table's numbering (log 10). -/
theorem test_table_word : decodeTableWord 32 0x00004001 = some (.ks 64#7) ∧
    decodeTableWord 32 0x00000005 = none ∧ decodeTableWord 16 0x204 = some (.rd .word 0x04#8) ∧
    decodeTableWord 16 0x608 = some (.wr .word 0x08#8 0#32) ∧
    decodeTableWord 48 0x000040010608 = some (.wr .word 0x08#8 0x4001#32) ∧
    decodeTableWord 32 0x204 = some (.rd .word 0x04#8) := by decide
/-- R95: a listing line. -/
theorem test_listing : listingLine 0x608#11 0x00004001#32 = some "608 00004001  ks 64" ∧
    listingLine 0x204#11 0#32 = some "204 --------  rd STATUS" ∧
    listingLine 0x640#11 0xffffffff#32 = some "640 ffffffff  wr IV0, 0xffffffff" := by decide +kernel

/-! ### The block function -/

/-- V1 and T1. -/
theorem test_quarter_round :
    quarterRound 0x11111111#32 0x01020304#32 0x9b8d6f43#32 0x01234567#32 =
      (0xea2a92f4#32, 0xcb1cf8ce#32, 0x4581472e#32, 0x5881c4bb#32) ∧
    quarterRound 0xffffffff#32 0xffffffff#32 0xffffffff#32 0xffffffff#32 =
      (0xf0000ffd#32, 0x88790878#32, 0x0110fdef#32, 0x010ffdf0#32) := by decide
/-- V3 (first and last words), T2 (first and last words). -/
theorem test_block_words :
    (blockWords (Vector.replicate 8 0#32) (Vector.replicate 4 0#32))[0] = 0xade0b876#32 ∧
    (blockWords (Vector.replicate 8 0#32) (Vector.replicate 4 0#32))[15] = 0x8665eeb2#32 ∧
    (blockWords (Vector.replicate 8 0xffffffff#32) (Vector.replicate 4 0xffffffff#32))[0] =
      0xcf212bd7#32 ∧
    (blockWords (Vector.replicate 8 0xffffffff#32) (Vector.replicate 4 0xffffffff#32))[15] =
      0x49e76be9#32 := by decide +kernel

/-! ### Instructions -/

/-- T14. -/
theorem test_nop : statusWord (after .nop State.reset).status = 0x00000001#32 ∧
    statusWord (completed .nop State.reset).status = 0x00000002#32 := by decide
/-- T3, T4, T7 and T9: completions of `ks`. -/
theorem test_ks_complete :
    (completed (.ks 64#7) (keyed32 ivV2)).dout =
      #v[0xe4e7f110#32, 0x15593bd1#32, 0x1fdd0f50#32, 0xc47120a3#32, 0xc7f4d1c7#32, 0x0368c033#32,
        0x9aaa2204#32, 0x4e6cd4c3#32, 0x466482d2#32, 0x09aa9f07#32, 0x05d7c214#32, 0xa2028bd9#32,
        0xd19c12b5#32, 0xb94e16de#32, 0xe883d0cb#32, 0x4e3c50a2#32] ∧
    (completed (.ks 64#7) (keyed32 ivV2)).iv = #v[2#32, 0x09000000#32, 0x4a000000#32, 0#32] ∧
    (completed (.ks 1#7) (keyed32 ivV2)).dout = (Vector.replicate 16 0#32).set 0 0x00000010#32 ∧
    (completed (.ks 64#7) (keyed #v[0xFFFFFFFF#32, 0#32, 0#32, 0#32])).iv = #v[0#32, 1#32, 0#32, 0#32] ∧
    statusWord (completed (.ks 64#7) (keyed32 #v[0xFFFFFFFF#32, 0x12345678#32, 0#32, 0#32])).status =
      0x00FF0302#32 := by decide +kernel
/-- T3 before completion, T8, T11, T12, T13: acceptance and the checks of `ks`. -/
theorem test_ks_issue :
    statusWord (after (.ks 64#7) ready).status = 0x00FF0101#32 ∧
    statusWord (after (.ks 64#7) (completed (.ks 64#7) (keyed #v[0xFFFFFFFF#32, 0xFFFFFFFF#32, 0#32, 0#32]))).status
      = 0x00FF0356#32 ∧
    statusWord (after (.ks 0#7) ready).status = 0x00FF0134#32 ∧
    statusWord (after (.ks 65#7) ready).status = 0x00FF0134#32 ∧
    statusWord (after (.ks 64#7) { ready with status := { ready.status with keymask := 0x7F#8 } }).status
      = 0x007F0044#32 ∧
    statusWord (after (.ks 0#7) State.reset).status = 0x00000034#32 := by decide +kernel
/-- The second block of program P1: `xor 50`. -/
theorem test_xor_complete :
    (completed (.xor 50#7)
      { keyed32 #v[2#32, 0#32, 0x4a000000#32, 0#32] with
        din := #v[0x20796c6e#32, 0x20656e6f#32, 0x20706974#32, 0x20726f66#32, 0x20656874#32, 0x75747566#32,
          0x202c6572#32, 0x736e7573#32, 0x65657263#32, 0x6f77206e#32, 0x20646c75#32, 0x69206562#32,
          0x00002e74#32, 0#32, 0#32, 0#32] }).dout =
      #v[0xbf0dca07#32, 0x616a0d50#32, 0x088ea356#32, 0x5eb6228a#32, 0x4d51bc52#32, 0x06f8cc16#32,
        0x1ae98c81#32, 0x363779b7#32, 0xbf0bf95a#32, 0xe65ba374#32, 0xed8e0bb4#32, 0x425e78f2#32,
        0x00004d87#32, 0#32, 0#32, 0#32] := by decide +kernel
/-- T5: `xor 64` on zero DIN, the T3 word; the same checks as `ks`. -/
theorem test_xor_zero : (completed (.xor 64#7) (keyed32 ivV2)).dout[0] = 0xe4e7f110#32 ∧
    statusWord (after (.xor 65#7) ready).status = 0x00FF0134#32 ∧
    statusWord (after (.xor 64#7) State.reset).status = 0x00000044#32 := by decide +kernel
/-- T15. -/
theorem test_clrbuf :
    (completed .clrbuf { ready with din := Vector.replicate 16 1#32, dout := Vector.replicate 16 2#32 }).din =
      Vector.replicate 16 0#32 ∧
    (completed .clrbuf { ready with din := Vector.replicate 16 1#32, dout := Vector.replicate 16 2#32 }).dout =
      Vector.replicate 16 0#32 ∧
    statusWord (completed .clrbuf ready).status = 0x00FF0102#32 ∧
    (completed .clrbuf (keyed #v[1#32, 0#32, 0#32, 0#32])).iv[0] = 1#32 := by decide
/-- T16. -/
theorem test_zeroize :
    statusWord (completed .zeroize (keyed #v[9#32, 0#32, 0#32, 0#32])).status = 0x00000002#32 ∧
    (completed .zeroize (keyed #v[9#32, 0#32, 0#32, 0#32])).iv = Vector.replicate 4 0#32 ∧
    (completed .zeroize (keyed #v[9#32, 0#32, 0#32, 0#32])).key = Vector.replicate 8 0#32 ∧
    statusWord (after (.ks 64#7) (completed .zeroize ready)).status = 0x00000046#32 := by decide
/-- T18. -/
theorem test_rd_reset : (after (.rd .word 0x00#8) State.reset).resp = some 1#32 ∧
    (after (.rd .word 0x04#8) State.reset).resp = some 0#32 ∧
    (after (.rd .word 0x08#8) State.reset).resp = some 0#32 ∧
    (after (.rd .word 0x0C#8) State.reset).resp = some 0xCC200100#32 ∧
    (after (.rd .word 0x20#8) ready).resp = some 0#32 ∧
    statusWord (after (.rd .word 0xC0#8) State.reset).status = 0#32 := by decide
/-- T19, T22, and T3 for a read while busy. -/
theorem test_rd_refused : statusWord (after (decodeTxn 0x004#11 0#32) State.reset).status = 0x00000064#32 ∧
    (after (decodeTxn 0x004#11 0#32) erred).resp = some 0#32 ∧
    statusWord (after (decodeTxn 0x210#11 0#32) State.reset).status = 0x00000064#32 ∧
    (after (.rd .word 0xC0#8) { busyKs with dout := Vector.replicate 16 5#32 }).resp = some 0#32 := by
  decide
/-- T26, and the key and IV writes of T3 and T8. -/
theorem test_wr : (after (.rd .word 0x00#8) (after (.wr .word 0x00#8 0xFFFFFFFF#32) State.reset)).resp
      = some 7#32 ∧
    statusWord (after (.wr .word 0x3C#8 5#32) State.reset).status = 0x00800000#32 ∧
    (after (.wr .word 0x3C#8 5#32) State.reset).key[7] = 5#32 ∧
    statusWord (after (.wr .word 0x40#8 5#32) { ready with status := { ready.status with wrap := true } }).status
      = 0x00FF0100#32 ∧
    statusWord (after (.wr .word 0x20#8 5#32) busyKs).status = 0x00FF0115#32 := by decide
/-- T20, T21, T24, T25 and T23 (ACCESS wins over BUSY, the first error is kept). -/
theorem test_wr_errors :
    statusWord (after (decodeTxn 0x621#11 1#32) State.reset).status = 0x00000064#32 ∧
    statusWord (after (decodeTxn 0x6C0#11 0#32) State.reset).status = 0x00000064#32 ∧
    statusWord (after (.wr .word 0x08#8 5#32) (after (decodeTxn 0x6C0#11 0#32) State.reset)).status
      = 0x0000006C#32 ∧
    statusWord (after (.wr .word 0x04#8 0x16#32)
      (after (.wr .word 0x08#8 5#32) (after (decodeTxn 0x6C0#11 0#32) State.reset))).status = 0x00000008#32 ∧
    statusWord (after (.wr .word 0x08#8 0#32) (after (decodeTxn 0x609#11 0#32) (after .nop State.reset))).status
      = 0x0000006D#32 := by decide

/-! ### Interrupt, reset, step -/

/-- T27, T28. -/
theorem test_irq :
    irq (after .nop (after (.wr .word 0x00#8 3#32) State.reset)) = false ∧
    irq (completed .nop (after (.wr .word 0x00#8 3#32) State.reset)) = true ∧
    irq (after (.wr .word 0x04#8 2#32) (completed .nop (after (.wr .word 0x00#8 3#32) State.reset))) = false ∧
    irq (after (.wr .word 0x08#8 5#32) (after (.wr .word 0x00#8 5#32) State.reset)) = true := by decide
/-- T29. -/
theorem test_reset_in_flight : step { busyKs with inputs := [.assertReset] } =
    .next { State.reset with resetIn := true } := rfl
/-- 70_reset_and_hazards.md R201: no transaction is accepted while reset is asserted. -/
theorem test_txn_in_reset : step { State.reset with resetIn := true, inputs := [.txn 0x204#11 0#32] } =
    .fault .transactionDuringReset := rfl
/-- 30_encoding.md R94: `wait` reads STATUS; it ends where bit 0 is 0 and goes on where it is 1. -/
theorem test_wait :
    step { completed .nop State.reset with inputs := wait [] } =
      .next { completed .nop State.reset with resp := some 0x00000002#32 } ∧
    step { pending .nop 1 State.reset with inputs := wait [2] ++ [.clock] } =
      .next { pending .nop 1 State.reset with
        resp := some 0x00000001#32, inputs := [.clock, .clock, .clock, .wait [], .clock] } := ⟨rfl, rfl⟩
/-- The first step after reset runs the placed instruction (log 10). -/
theorem test_fetch_word : step (State.reset.withFetchWord 32 0) = .next (accept .nop State.reset) ∧
    step (State.reset.withFetchWord 16 0x20C) = .next { State.reset with resp := some 0xCC200100#32 } :=
  ⟨rfl, rfl⟩

/-! ### Witnesses: states and operands that meet the hypotheses of each statement

A statement that is not named here has no hypothesis. -/

/-- RSV1 set, RSV0 set; then RSV1 = RSV0 = 0 for the word of each further clause, at both ends of LEN. -/
theorem test_witness_CommandDecoder :
    (0x00008000#32).toNat / 32768 ≠ 0 ∧ (0x00000010#32).toNat / 16 % 16 ≠ 0 ∧
    (0x00007F0F#32).toNat / 32768 = 0 ∧ (0x00007F0F#32).toNat / 16 % 16 = 0 ∧
    (0x00000000#32).toNat % 16 = 0 ∧ (0x00000100#32).toNat / 256 % 128 ≠ 0 ∧
    (0x00007F01#32).toNat % 16 = 1 ∧ (0x00004002#32).toNat % 16 = 2 ∧ (0x00000003#32).toNat % 16 = 3 ∧
    (0x00007F03#32).toNat / 256 % 128 ≠ 0 ∧ (0x00000004#32).toNat % 16 = 4 ∧
    (0x00000104#32).toNat / 256 % 128 ≠ 0 ∧ 5 ≤ (0x00000005#32).toNat % 16 ∧
    5 ≤ (0x00007F0F#32).toNat % 16 := by decide

theorem test_witness_IllegalCommandWords :
    decodeCmd 0x00008000#32 = .reject .reservedBits ∧ State.reset.status.busy = false ∧
    ∀ r, decodeCmd 0x00004001#32 ≠ .reject r :=
  ⟨by decide, rfl, fun r h => by cases r <;> exact absurd h (by decide)⟩

theorem test_witness_DescriptorDecode :
    (0x2FC#11).toNat / 256 % 4 = 2 ∧ (0x2FC#11).toNat % 4 = 0 ∧ (0x2FC#11).toNat / 1024 = 0 ∧
    (0x600#11).toNat / 256 % 4 = 2 ∧ (0x600#11).toNat % 4 = 0 ∧ (0x600#11).toNat / 1024 = 1 ∧
    (0x7FC#11).toNat / 256 % 4 ≠ 2 ∧ (0x621#11).toNat % 4 ≠ 0 := by decide

theorem test_witness_StepRunsDecodedInstruction :
    decode (.cmd 0x00004001#32) = .ok (.ks 64#7) ∧
    ({ ready with inputs := [inputOfCode (.cmd 0x00004001#32), .clock] } : State).inputs =
      inputOfCode (.cmd 0x00004001#32) :: [.clock] ∧ ready.resetIn = false ∧
    decode (.host 0x620#11 7#32) = .ok (.wr .word 0x20#8 7#32) ∧
    tableCode 32 0x00004001 = some (.cmd 0x00004001#32) ∧
    tableCode 16 0x204 = some (.host 0x204#11 0#32) := by decide

theorem test_witness_OtherSteps :
    ready.inputs = [] ∧
    ({ ready with inputs := [.clock, .clock] } : State).inputs = .clock :: [.clock] ∧
    ({ busyKs with inputs := [.assertReset] } : State).inputs = .assertReset :: [] ∧
    ({ State.reset with resetIn := true, inputs := [.txn 0x204#11 0#32] } : State).inputs =
      .txn 0x204#11 0#32 :: [] ∧
    ({ State.reset with resetIn := true, inputs := [.txn 0x204#11 0#32] } : State).resetIn = true ∧
    ({ State.reset with resetIn := true, inputs := [.releaseReset, .txn 0x204#11 0#32] } : State).inputs =
      .releaseReset :: .txn 0x204#11 0#32 :: [] ∧
    ({ State.reset with resetIn := true, inputs := [.wait []] } : State).inputs = .wait [] :: [] ∧
    ({ busyKs with inputs := .wait [2] :: rddout } : State).inputs = .wait [2] :: rddout ∧
    ready.resetIn = false ∧ ready.status.busy = false ∧ busyKs.resetIn = false ∧
    busyKs.status.busy = true :=
  ⟨rfl, rfl, rfl, rfl, rfl, rfl, rfl, rfl, rfl, rfl, rfl, rfl⟩

theorem test_witness_ErrorRecording : ready.status.errv = false ∧ erred.status.errv = true := by decide

/-- Each error of 60_exceptions.md R170, and an instruction to which none applies. -/
theorem test_witness_FirstErrorIsRecorded :
    firstError (.rd .word 0x10#8) ready.status = some .access ∧
    firstError (.wr .word 0xC0#8 0#32) busyKs.status = some .access ∧
    firstError (.wr .word 0x08#8 5#32) busyKs.status = some .busy ∧
    firstError (.wr .word 0x08#8 5#32) ready.status = some .illegalCmd ∧
    firstError (.ks 0#7) State.reset.status = some .badLen ∧
    firstError (.xor 64#7) State.reset.status = some .noKey ∧
    firstError (.ks 64#7) { ready.status with wrap := true } = some .ctrExhausted ∧
    firstError (.ks 64#7) ready.status = none ∧ firstError (.rd .word 0x04#8) ready.status = none ∧
    (∀ size v, Instr.ks 64#7 ≠ .wr size 0x04#8 v) :=
  ⟨by decide, by decide, by decide, by decide, by decide, by decide, by decide, by decide, by decide,
    fun _ _ => by simp⟩

theorem test_witness_MisalignedOrNarrowRefused : (0x21#8).toNat % 4 ≠ 0 ∧ Size.byte ≠ .word := by decide

theorem test_witness_ReadRegister :
    Size.half ≠ .word ∧ (0x03#8).toNat % 4 ≠ 0 ∧ (0x10 ≤ (0x10#8).toNat ∧ (0x10#8).toNat < 0x20) ∧
    (0x10 ≤ (0x1C#8).toNat ∧ (0x1C#8).toNat < 0x20) ∧ (0x50 ≤ (0x50#8).toNat ∧ (0x50#8).toNat < 0x80) ∧
    (0x50 ≤ (0x7C#8).toNat ∧ (0x7C#8).toNat < 0x80) := by decide

theorem test_witness_DoutReadsZeroWhileBusy :
    busyKs.status.busy = true ∧ ready.status.busy = false ∧ exec (.ks 64#7) ready = .next busyKs :=
  ⟨rfl, rfl, rfl⟩

/-- A plain read and a refused one. -/
theorem test_witness_ReadsHaveNoSideEffect :
    (∃ t u, exec (.rd .word 0x04#8) ready = .next t ∧ exec (.rd .word 0x04#8) t = .next u) ∧
    (∃ t u, exec (.rd .word 0x10#8) ready = .next t ∧ exec (.rd .word 0x10#8) t = .next u) ∧
    accessApplies (.rd .word 0x04#8) = false ∧ accessApplies (.rd .word 0x10#8) = true :=
  ⟨⟨_, _, rfl, rfl⟩, ⟨_, _, rfl, rfl⟩, by decide, by decide⟩

theorem test_witness_RegisterMap : RegClass.dout 15 ≠ .reserved ∧ classOf 0xFC#8 = .dout 15 := by decide

/-- The ends of each range of offsets of the two clauses. -/
theorem test_witness_WriteWhileBusy : busyKs.status.busy = true ∧
    (∀ n ∈ [0x00, 0x08, 0x20, 0x4C, 0x80, 0xBC], n % 4 = 0 ∧
      (n = 0x00 ∨ n = 0x08 ∨ (0x20 ≤ n ∧ n < 0x50) ∨ (0x80 ≤ n ∧ n < 0xC0))) ∧
    ∀ n ∈ [0x0C, 0x10, 0x1C, 0x50, 0x7C, 0xC0, 0xFC], n % 4 = 0 ∧
      (n = 0x0C ∨ (0x10 ≤ n ∧ n < 0x20) ∨ (0x50 ≤ n ∧ n < 0x80) ∨ 0xC0 ≤ n) := by decide

theorem test_witness_WriteCtrl :
    (keyed #v[0xFFFFFFFF#32, 7#32, 0#32, 0#32]).status.busy = false ∧ (7#32).getLsbD 0 = true ∧
    (keyed #v[0xFFFFFFFF#32, 7#32, 0#32, 0#32]).iv[0] = 0xFFFFFFFF#32 ∧ (6#32).getLsbD 0 = false := by
  decide

theorem test_witness_WriteStatus :
    (0x0E#32).getLsbD 1 = true ∧ (0x0E#32).getLsbD 2 = true ∧ (0x0E#32).getLsbD 3 = true ∧
    (0#32).getLsbD 1 = false ∧ (0#32).getLsbD 2 = false ∧ (0#32).getLsbD 3 = false ∧
    statusWord { Status.reset with done := true, errv := true, errcode := 1#3 } = 0x00000016#32 := by
  decide

theorem test_witness_WriteKey : State.reset.status.busy = false := rfl

theorem test_witness_WriteIv : ready.status.busy = false ∧ ready.status.keymask = 0xFF#8 ∧
    1 ≤ (1#7).toNat ∧ (1#7).toNat ≤ 64 ∧ 1 ≤ (64#7).toNat ∧ (64#7).toNat ≤ 64 := by decide

theorem test_witness_WriteDin : ready.status.busy = false := rfl

/-- A write that happens, one that BUSY refuses, and one that issues a command. -/
theorem test_witness_WriteFrame :
    (∃ t, exec (.wr .word 0x20#8 7#32) ready = .next t) ∧
    (∃ t, exec (.wr .word 0x20#8 7#32) busyKs = .next t) ∧
    (∃ t, exec (.wr .word 0x08#8 0x4001#32) ready = .next t) := ⟨⟨_, rfl⟩, ⟨_, rfl⟩, ⟨_, rfl⟩⟩

/-- A command accepted and one refused. -/
theorem test_witness_IssueFrame :
    exec (Cmd.ks 64#7).toInstr ready = .next busyKs ∧
    (∃ t, exec (Cmd.ks 0#7).toInstr ready = .next t) := ⟨rfl, ⟨_, rfl⟩⟩

theorem test_witness_QuarterRound :
    (∀ (w : Word) (n : Nat), (fun w n => (w <<< n) ||| (w >>> (32 - n)) : Word → Nat → Word) w n =
      (w <<< n) ||| (w >>> (32 - n))) ∧
    ∃ a1 d1 : Word, a1 = 1#32 + 2#32 ∧ d1 = 4#32 ^^^ a1 := ⟨fun _ _ => rfl, ⟨_, _, rfl, rfl⟩⟩

/-- An order of the eight quarter rounds other than the written one. -/
theorem test_witness_DoubleRound :
    ([(3, 7, 11, 15), (1, 5, 9, 13), (2, 6, 10, 14), (0, 4, 8, 12)] :
      List (Fin 16 × Fin 16 × Fin 16 × Fin 16)).Perm
      [(0, 4, 8, 12), (1, 5, 9, 13), (2, 6, 10, 14), (3, 7, 11, 15)] ∧
    ([(1, 6, 11, 12), (0, 5, 10, 15), (3, 4, 9, 14), (2, 7, 8, 13)] :
      List (Fin 16 × Fin 16 × Fin 16 × Fin 16)).Perm
      [(0, 5, 10, 15), (1, 6, 11, 12), (2, 7, 8, 13), (3, 4, 9, 14)] := by decide

theorem test_witness_BlockFunction : ∃ s x : Vector Word 16,
    s = initialState ready.key ready.iv ∧ x = doubleRound^[10] s := ⟨_, _, rfl, rfl⟩

theorem test_witness_CounterAdvance :
    ready.ctrl.ctr64 = true ∧ (keyed32 ivV2).ctrl.ctr64 = false ∧
    ∃ t : State, t = counterAdvance (keyed32 #v[0xFFFFFFFF#32, 7#32, 0#32, 0#32]) ∧
      (keyed32 #v[0xFFFFFFFF#32, 7#32, 0#32, 0#32]).status.busy = false ∧
      (keyed32 #v[0xFFFFFFFF#32, 7#32, 0#32, 0#32]).status.keymask = 0xFF#8 ∧
      1 ≤ (64#7).toNat ∧ (64#7).toNat ≤ 64 ∧ t.status.wrap = true :=
  ⟨by decide, by decide, _, rfl, by decide, by decide, by decide, by decide, by decide⟩

theorem test_witness_ready : keystreamReady ready ∧ keystreamReady (keyed32 ivV2) ∧
    1 ≤ (1#7).toNat ∧ (64#7).toNat ≤ 64 := by
  unfold keystreamReady idle
  decide

theorem test_witness_CounterExhaustion : keystreamReady ready ∧ blockCounter ready = 0 ∧
    2 ^ 64 ≤ counterRange ready.ctrl ∧ 2 ^ 64 = counterRange ready.ctrl :=
  ⟨test_witness_ready.1, by decide, by decide, by decide⟩

theorem test_witness_KsXorChecks :
    ready.status.busy = false ∧ (0#7).toNat = 0 ∧ 64 < (65#7).toNat ∧ 64 < (127#7).toNat ∧
    State.reset.status.busy = false ∧ State.reset.status.keymask ≠ 0xFF#8 ∧
    ready.status.keymask = 0xFF#8 ∧ ({ ready.status with wrap := true } : Status).wrap = true ∧
    ready.status.wrap = false := by decide

theorem test_witness_KsRuns : keystreamReady (keyed32 ivV2) ∧ 1 ≤ (64#7).toNat ∧ (64#7).toNat ≤ 64 ∧
    State.reset.status.busy = false ∧ checkKsXor 64#7 State.reset.status = some .noKey ∧
    (keyed32 ivV2).ctrl.ctr64 = false ∧
    (keyed32 ivV2).key = #v[0x03020100#32, 0x07060504#32, 0x0b0a0908#32, 0x0f0e0d0c#32, 0x13121110#32,
      0x17161514#32, 0x1b1a1918#32, 0x1f1e1d1c#32] ∧
    (keyed32 ivV2).iv = #v[0x00000001#32, 0x09000000#32, 0x4a000000#32, 0x00000000#32] :=
  ⟨test_witness_ready.2.1, by decide, by decide, rfl, by decide, rfl, rfl, rfl⟩

theorem test_witness_XorRuns : keystreamReady ready ∧ 1 ≤ (1#7).toNat ∧ (1#7).toNat ≤ 64 ∧
    ready.status.busy = false ∧ checkKsXor 65#7 ready.status = some .badLen ∧
    ∃ s : State, keystreamReady s ∧ s.ctrl.ctr64 = false ∧
      s.key = #v[0x03020100#32, 0x07060504#32, 0x0b0a0908#32, 0x0f0e0d0c#32, 0x13121110#32,
        0x17161514#32, 0x1b1a1918#32, 0x1f1e1d1c#32] ∧
      s.iv = #v[0x00000001#32, 0x00000000#32, 0x4a000000#32, 0x00000000#32] ∧ s.din[0] = 0x6964614c#32 :=
  ⟨test_witness_ready.1, by decide, by decide, rfl, by decide,
    { keyed32 #v[0x00000001#32, 0x00000000#32, 0x4a000000#32, 0x00000000#32] with
      din := Vector.replicate 16 0x6964614c#32 }, test_witness_ready.2.1, rfl, rfl, rfl, by decide⟩

theorem test_witness_NopRuns : idle State.reset ∧ State.reset.status.busy = false ∧
    (0x00000100#32).toNat % 16 = 0 ∧ 0x00000100#32 ≠ 0x00000000#32 :=
  ⟨⟨rfl, rfl⟩, rfl, by decide, by decide⟩

theorem test_witness_ClrbufRuns : idle State.reset ∧ State.reset.status.busy = false ∧
    (0x00000103#32).toNat % 16 = 3 ∧ 0x00000103#32 ≠ 0x00000003#32 :=
  ⟨⟨rfl, rfl⟩, rfl, by decide, by decide⟩

theorem test_witness_ZeroizeRuns : idle ready ∧ ready.status.errv = false ∧ ready.status.errcode = 0#3 ∧
    ready.status.errovf = false ∧ 1 ≤ (64#7).toNat ∧ (64#7).toNat ≤ 64 ∧ busyKs.status.busy = true ∧
    (0x00000014#32).toNat % 16 = 4 ∧ 0x00000014#32 ≠ 0x00000004#32 ∧
    (∃ j : Fin 8, j ∉ ([(0, 7#32)] : List (Fin 8 × Word)).map Prod.fst) ∧
    (∀ j : Fin 8, j ∈ ((List.finRange 8).map fun i => (i, 7#32) : List (Fin 8 × Word)).map Prod.fst) :=
  ⟨⟨rfl, rfl⟩, rfl, by decide, rfl, by decide, by decide, rfl, by decide, by decide, by decide, by decide⟩

theorem test_witness_XorCornerCases : keystreamReady ready ∧ ready.din = Vector.replicate 16 0#32 ∧
    1 ≤ (1#7).toNat ∧ (1#7).toNat ≤ 64 ∧
    ∀ i : Nat, i < (1#7).toNat →
      fileByte (ready.din.set 15 7#32) i = fileByte ready.din i :=
  ⟨test_witness_ready.1, by decide, by decide, by decide, by decide +kernel⟩

theorem test_witness_XorTwiceIsIdentity : ∃ t : State, keystreamReady ready ∧ keystreamReady t ∧
    1 ≤ (64#7).toNat ∧ (64#7).toNat ≤ 64 ∧ t.key = ready.key ∧ t.iv = ready.iv ∧
    t.din = (runCommand (.xor 64#7) ready).dout :=
  ⟨{ ready with din := (runCommand (.xor 64#7) ready).dout }, test_witness_ready.1, test_witness_ready.1,
    by decide, by decide, rfl, rfl, rfl⟩

/-- The 114-byte message of V4, from counter 1. -/
theorem test_witness_MessageKeystream : keystreamReady (keyed32 ivV2) ∧
    blockCounter (keyed32 ivV2) + messageCommands (List.replicate 114 0x61#8) ≤
      counterRange (keyed32 ivV2).ctrl :=
  ⟨test_witness_ready.2.1, by decide⟩

theorem test_witness_MessageRoundTrip : ∃ t : State, keystreamReady (keyed32 ivV2) ∧ keystreamReady t ∧
    t.key = (keyed32 ivV2).key ∧ t.iv = (keyed32 ivV2).iv ∧ t.ctrl.ctr64 = (keyed32 ivV2).ctrl.ctr64 ∧
    t ≠ keyed32 ivV2 ∧
    blockCounter (keyed32 ivV2) + messageCommands (List.replicate 114 0x61#8) ≤
      counterRange (keyed32 ivV2).ctrl :=
  ⟨{ keyed32 ivV2 with dout := Vector.replicate 16 7#32 }, test_witness_ready.2.1, test_witness_ready.2.1, rfl, rfl,
    rfl, by decide, by decide⟩

theorem test_witness_AeadOneTimeKey : ∃ t u : State, keystreamReady ready ∧ blockCounter ready = 0 ∧
    t = runCommand (.ks 32#7) ready ∧ u = runCommand .clrbuf t :=
  ⟨_, _, test_witness_ready.1, by decide, rfl, rfl⟩

theorem test_witness_AcceptAndComplete :
    (∀ c ∈ [Cmd.nop, .ks 64#7, .xor 1#7, .clrbuf, .zeroize], firstError c.toInstr ready.status = none) ∧
    (pending (.xor 1#7) 1 ready).resetIn = false ∧ (pending (.xor 1#7) 1 ready).pend = some (.xor 1#7) ∧
    (pending (.xor 1#7) 1 ready).left = 1 := by decide

theorem test_witness_CommandCompletesInTime :
    busyKs.inputs = [] ∧ busyKs.resetIn = false ∧ busyKs.pend = some (.ks 64#7) ∧
    busyKs.left = Config.latencyLessOne + 1 ∧
    ({ busyKs with inputs := .wait [2] :: rddout } : State).inputs = .wait [2] :: rddout ∧
    busyKs.status.busy = true := ⟨rfl, rfl, rfl, rfl, rfl, rfl⟩

/-- Two states with different data and different commands in flight. -/
theorem test_witness_TimingIndependentOfData :
    (pending (.ks 64#7) 3 ready).pend.isSome = (pending .nop 3 State.reset).pend.isSome ∧
    (pending (.ks 64#7) 3 ready).left = (pending .nop 3 State.reset).left ∧
    (pending (.ks 64#7) 3 ready).resetIn = (pending .nop 3 State.reset).resetIn ∧
    firstError (Cmd.ks 64#7).toInstr ready.status = none ∧
    firstError Cmd.nop.toInstr State.reset.status = none := by decide

/-- A refused write in flight, and the last cycle. -/
theorem test_witness_BusyFreezesOperands :
    busyKs.status.busy = true ∧ busyKs.pend = some (.ks 64#7) ∧
    (∃ t, step { busyKs with inputs := [.txn 0x620#11 7#32] } = .next t) ∧
    (∃ t, step (pending (.ks 64#7) 1 ready) = .next t) := ⟨rfl, rfl, ⟨_, rfl⟩, ⟨_, rfl⟩⟩

theorem test_witness_OnlyCompletionWritesDout :
    ∃ t, step (pending .clrbuf 1 { ready with dout := Vector.replicate 16 7#32 }) = .next t ∧
      t.dout ≠ (pending .clrbuf 1 { ready with dout := Vector.replicate 16 7#32 }).dout :=
  ⟨_, rfl, by decide⟩

theorem test_witness_KeymaskWriters :
    (∃ t, step { State.reset with inputs := [.txn 0x63C#11 7#32] } = .next t ∧
      State.reset.status.keymask.getLsbD 7 = false ∧ t.status.keymask.getLsbD 7 = true) ∧
    ({ ready with inputs := [.txn (BitVec.ofNat 11 (0x620 + 4 * (0 : Fin 8).val)) 7#32] } : State).inputs =
      .txn (BitVec.ofNat 11 (0x620 + 4 * (0 : Fin 8).val)) 7#32 :: [] ∧
    (∃ t, step (pending .zeroize 1 ready) = .next t ∧
      (pending .zeroize 1 ready).status.keymask.getLsbD 0 = true ∧ t.status.keymask.getLsbD 0 = false) ∧
    State.reset.status.busy = false ∧ State.reset.status.keymask ≠ 0xFF#8 ∧
    (∃ t, exec (.ks 64#7) State.reset = .next t) ∧ (∃ t, exec (.xor 64#7) State.reset = .next t) :=
  ⟨⟨_, rfl, rfl, rfl⟩, rfl, ⟨_, rfl, rfl, rfl⟩, rfl, by decide, ⟨_, rfl⟩, ⟨_, rfl⟩⟩

theorem test_witness_WrapWriters :
    (∃ t, step (pending (.ks 4#7) 1 (keyed32 #v[0xFFFFFFFF#32, 0#32, 0#32, 0#32])) = .next t ∧
      t.status.wrap = true) ∧
    (∃ t, step { ready with status := { ready.status with wrap := true }, inputs := [.txn 0x64C#11 7#32] } =
      .next t ∧ t.status.wrap = false) := by
  refine ⟨⟨_, rfl, ?_⟩, ⟨_, rfl, ?_⟩⟩ <;> decide

theorem test_witness_BusyDoneWriters :
    (∃ t, step { ready with inputs := [cmdInput .clrbuf] } = .next t ∧ t.status.busy = true) ∧
    (∃ t, step (pending .nop 1 ready) = .next t ∧ t.status.busy = false ∧ t.status.done = true) ∧
    (∃ t, step { ready with status := { ready.status with done := true }, inputs := [.txn 0x604#11 2#32] } =
      .next t ∧ t.status.done = false) :=
  ⟨⟨_, rfl, rfl⟩, ⟨_, rfl, rfl, rfl⟩, ⟨_, rfl, rfl⟩⟩

theorem test_witness_ErrorFlagWriters :
    (∃ t, step { ready with inputs := [.txn 0x210#11 0#32] } = .next t ∧ t.status.errv = true) ∧
    (∃ t, step { erred with inputs := [.txn 0x604#11 4#32] } = .next t ∧ t.status.errv = false) ∧
    (∃ t, step { erred with inputs := [.txn 0x210#11 0#32] } = .next t ∧ t.status.errovf = true) ∧
    (∃ t, step { erred with
        status := { erred.status with errovf := true }, inputs := [.txn 0x604#11 8#32] } = .next t ∧
      t.status.errovf = false) := by
  refine ⟨⟨_, rfl, ?_⟩, ⟨_, rfl, ?_⟩, ⟨_, rfl, ?_⟩, ⟨_, rfl, ?_⟩⟩ <;> decide

theorem test_witness_InterruptOutput :
    (0x06#32).getLsbD 1 = true ∧ (0x06#32).getLsbD 2 = true ∧ (0x02#32).getLsbD 2 = false ∧
    (0x04#32).getLsbD 1 = false ∧ firstError Cmd.nop.toInstr ready.status = none := by decide

theorem test_witness_ResetValues :
    (∃ r, r = assertReset busyKs) ∧
    ({ busyKs with inputs := [.assertReset, .clock] } : State).inputs = .assertReset :: [.clock] :=
  ⟨⟨_, rfl⟩, rfl⟩

theorem test_witness_StatusInvariants :
    (∃ t, step { busyKs with inputs := [.txn 0x210#11 0#32] } = .next t) ∧
    (busyKs.status.errv = false → busyKs.status.errcode = 0#3) ∧ busyKs.status.errcode ≠ 7#3 ∧
    busyKs.status.busy = busyKs.pend.isSome := ⟨⟨_, rfl⟩, by decide, by decide, rfl⟩

/-- A state with a KS in flight meets the invariant. -/
theorem test_witness_StepKeepsInvariant : Inv busyKs ∧ ∃ t, step busyKs = .next t :=
  ⟨{ noErrorNoCode := by decide
     codeNotSeven := by decide
     busyIffPending := rfl
     leftBound := Nat.le_refl _
     leftIffPending := by simp [busyKs, pending, Config.latency]
     busyNotDone := by decide
     xZero := rfl
     ksZero := rfl
     wrapNeedsKey := by decide
     pendingKeystream := by
       intro len h
       have : len = 64#7 := by simpa [busyKs, pending, eq_comm] using h
       subst this
       decide
     resetHolds := fun h => absurd h (by decide) }, ⟨_, rfl⟩⟩

theorem test_witness_SafeScheduleNeverStops :
    State.safe { busyKs with
      inputs := [.txn 0x204#11 0#32, .clock, .assertReset, .clock, .releaseReset, .txn 0x608#11 0#32] } :=
  rfl

theorem test_witness_KeyNeverShows :
    sameButSecrets ready { ready with key := Vector.replicate 8 9#32, x := Vector.replicate 16 1#32 } ∧
    ready ≠ { ready with key := Vector.replicate 8 9#32, x := Vector.replicate 16 1#32 } :=
  ⟨rfl, by decide⟩

theorem test_witness_LoadPseudoInstructions : idle ready ∧
    ({ ready with inputs := ldkey [1#8, 2#8] ++ [.clock] } : State).inputs = ldkey [1#8, 2#8] ++ [.clock] ∧
    ({ ready with inputs := ldiv64 5#64 [1#8] } : State).inputs = ldiv64 5#64 [1#8] ++ [] ∧
    ({ ready with inputs := ldiv96 5#32 [1#8] } : State).inputs = ldiv96 5#32 [1#8] ++ [] ∧
    ready.ctrl.ctr64 = true ∧ (keyed32 ivV2).ctrl.ctr64 = false :=
  ⟨⟨rfl, rfl⟩, rfl, rfl, rfl, rfl, rfl⟩

end Sys2Proof.Tests
end

