-- ==== Sys2Proof/Proofs/Scope.lean ====
section
/-! PROOF. The step runs the instruction that the waiting transaction decodes to (00_scope.md R13). -/

namespace Sys2Proof

/-- The WE bit of an encoded descriptor (30_encoding.md R84). -/
@[simp] theorem weField_encodeDesc (we : Bool) (size : Size) (off : BitVec 8) :
    weField (encodeDesc we size off) = we := by
  rw [weField, getLsbD_encodeDesc]
  simp

/-- The SIZE of an encoded descriptor (30_encoding.md R84). -/
@[simp] theorem sizeField_encodeDesc (we : Bool) (size : Size) (off : BitVec 8) :
    sizeField (encodeDesc we size off) = size := by
  have hbits : (encodeDesc we size off).extractLsb' 8 2 = sizeBits size := by
    ext i hi
    have h1 : ¬ 8 + i < 8 := by omega
    have h2 : 8 + i < 10 := by omega
    simp [← BitVec.getLsbD_eq_getElem, getLsbD_encodeDesc, h1, h2, Nat.le_of_lt_succ hi]
  rw [sizeField, hbits]
  cases size <;> rfl

/-- The OFF of an encoded descriptor (30_encoding.md R84). -/
@[simp] theorem offField_encodeDesc (we : Bool) (size : Size) (off : BitVec 8) :
    offField (encodeDesc we size off) = off := by
  ext i hi
  simp [← BitVec.getLsbD_eq_getElem, offField, getLsbD_encodeDesc, hi]

/-- An encoded descriptor decodes to its fields (30_encoding.md R84, R85). -/
theorem decodeTxn_encodeDesc (we : Bool) (size : Size) (off : BitVec 8) (v : Word) :
    decodeTxn (encodeDesc we size off) v = if we then .wr size off v else .rd size off := by
  simp only [decodeTxn, weField_encodeDesc, sizeField_encodeDesc, offField_encodeDesc]

end Sys2Proof

namespace Sys2Proof.Machine

/-- While BUSY = 1 a command is refused with BUSY, whatever its own check says
(43_register_access.md R152). -/
theorem issue_of_busy {s : State} (hb : s.status.busy = true) (check : Option Err) (c : Cmd) :
    issue check c s = record .busy s := by
  simp [issue, hb]

/-- A write of a command's word to CMD is the command: the BUSY check of the write and that of the issue
are the same (30_encoding.md R93, 43_register_access.md R152). -/
theorem exec_wr_cmd {w : Word} {c : Cmd} (hd : decodeCmd w = .ok c) (s : State) :
    exec (.wr .word cmdOffset w) s = exec c.toInstr s := by
  have hwr : exec (.wr .word cmdOffset w) s = unlessBusy (answerNone s) (writeCmd w (answerNone s)) := rfl
  have hcmd : writeCmd w (answerNone s) = exec c.toInstr s := by
    rcases writeCmd_cases w (answerNone s) with ⟨r, hr, -⟩ | ⟨c', hc, h⟩
    · rw [hd] at hr; cases hr
    · rw [hd] at hc; cases hc
      rw [h, exec_toInstr, exec_toInstr]; rfl
  rw [hwr, hcmd, exec_toInstr]
  cases hb : s.status.busy
  · simp [unlessBusy, hb]
  · simp [unlessBusy, hb, issue_of_busy]

/-- The transaction that carries a code runs the instruction the code decodes to (30_encoding.md R85,
R93). -/
theorem exec_txn_of_decode {c : Code} {i : Instr} (hd : decode c = .ok i) (s : State) :
    exec (decodeTxn c.txn.1 c.txn.2) s = exec i s := by
  cases c with
  | cmd w =>
    have htxn : decodeTxn (Code.cmd w).txn.1 (Code.cmd w).txn.2 = .wr .word cmdOffset w :=
      decodeTxn_encodeDesc true .word cmdOffset w
    cases hc : decodeCmd w with
    | ok c =>
      have hi : c.toInstr = i := by simpa [decode, hc, Decoded.map] using hd
      rw [htxn, exec_wr_cmd hc, hi]
    | reject r => simp [decode, hc, Decoded.map] at hd
  | host d v =>
    have hi : decodeTxn d v = i := by simpa [decode] using hd
    exact congrArg (exec · s) hi

/-- A waiting transaction is decoded and runs while reset is released (70_reset_and_hazards.md R201). -/
theorem step_txn {s : State} {d : BitVec 11} {v : Word} {rest : List Input}
    (hin : s.inputs = .txn d v :: rest) (hr : s.resetIn = false) :
    step s = exec (decodeTxn d v) { s with inputs := rest } := by
  simp [step, nextInput, takeInput, hin, hr]

/-- The step with a decoding code at the front of the inputs (30_encoding.md R85, R93). -/
theorem step_inputOfCode {s : State} {c : Code} {i : Instr} {rest : List Input} (hd : decode c = .ok i)
    (hin : s.inputs = inputOfCode c :: rest) (hr : s.resetIn = false) :
    step s = exec i { s with inputs := rest } :=
  (step_txn hin hr).trans (exec_txn_of_decode hd _)

/-- The number of a code stands for the transaction that carries it (log 10). -/
theorem tableInput_of_tableCode {nbits w : Nat} {c : Code} (h : tableCode nbits w = some c) :
    tableInput nbits w = inputOfCode c := by
  simp [tableInput, h]

/-- Settles O8: either way a code's transaction is next, and it runs as what the code decodes to. -/
theorem stepRunsDecodedInstruction : Obligations.StepRunsDecodedInstruction := by
  refine ⟨fun s c i rest hd hin hr => step_inputOfCode hd hin hr, fun s nbits w c i ht hd => ?_⟩
  have hin : (s.withFetchWord nbits w).inputs = inputOfCode c :: s.inputs :=
    congrArg (· :: s.inputs) (tableInput_of_tableCode ht)
  exact step_inputOfCode hd hin rfl

end Sys2Proof.Machine
end

