-- ==== Sys2Proof/Proofs/State.lean ====
section
/-! PROOF. What an instruction and a step can do, and the statements of 10_state.md: the invariant, the
writers of DOUT and KEYMASK, the register map, the latency of a command, and that the key never shows. -/

namespace Sys2Proof.Machine

/-! ### The register map (10_state.md R21) -/

@[simp] theorem classOf_key (i : Fin 8) : classOf (BitVec.ofNat 8 (0x20 + 4 * i.val)) = .key i := by
  revert i; decide
@[simp] theorem classOf_iv (i : Fin 4) : classOf (BitVec.ofNat 8 (0x40 + 4 * i.val)) = .iv i := by
  revert i; decide
@[simp] theorem classOf_din (i : Fin 16) : classOf (BitVec.ofNat 8 (0x80 + 4 * i.val)) = .din i := by
  revert i; decide
@[simp] theorem classOf_dout (i : Fin 16) : classOf (BitVec.ofNat 8 (0xC0 + 4 * i.val)) = .dout i := by
  revert i; decide

/-- A register's offset falls in that register. -/
theorem classOf_of_offsetOf {c : RegClass} {off : BitVec 8} (h : offsetOf c = some off) :
    classOf off = c := by
  cases c with
  | key i => cases h; exact classOf_key i
  | iv i => cases h; exact classOf_iv i
  | din i => cases h; exact classOf_din i
  | dout i => cases h; exact classOf_dout i
  | ctrl | status | cmd | id | reserved => cases h <;> rfl

/-- An offset that falls in a register is the register's. -/
theorem offsetOf_classOf {off : BitVec 8} (h : classOf off ≠ .reserved) :
    offsetOf (classOf off) = some off := by
  have hlt := off.isLt
  revert h
  unfold classOf
  split_ifs <;> intro h
  any_goals contradiction
  all_goals
    refine congrArg some (BitVec.eq_of_toNat_eq ?_)
    simp only [Fin.ofNat, BitVec.toNat_ofNat]
    omega

/-- Settles O18: the two directions are `offsetOf_classOf` and `classOf_of_offsetOf`. -/
theorem registerMap : Obligations.RegisterMap := by
  refine fun off c hc => ⟨fun h => ?_, classOf_of_offsetOf⟩
  subst h
  exact offsetOf_classOf hc

/-- Settles O17: ID answers its constant, and a write of it is refused. -/
theorem idIsConstant : Obligations.IdIsConstant := by
  refine ⟨fun s => rfl, fun s v => ?_, by decide, by decide, by decide⟩
  have hwr : exec (.wr .word 0x0C#8 v) s = .next (record .access (answerNone s)) := rfl
  rw [hwr, record_eq]
  rfl

/-! ### What an instruction can do -/

/-- The instruction issues the command: it is the command, or a CMD write of a word that decodes to it
(30_encoding.md R93). -/
def Issues (i : Instr) (c : Cmd) : Prop :=
  i = c.toInstr ∨ ∃ size off v, i = .wr size off v ∧ plainAccess size off = true ∧
    classOf off = .cmd ∧ decodeCmd v = .ok c

/-- What an instruction can do: every case, with its guards (43_register_access.md R150, R153, R159;
60_exceptions.md R172). -/
inductive ExecEffect (s : State) : Instr → State → Prop
  | readRefused (size : Size) (off : BitVec 8) :
      ExecEffect s (.rd size off) (answer 0#32 (record .access s))
  | read (size : Size) (off : BitVec 8) (hp : plainAccess size off = true)
      (hc : classOf off ≠ .reserved) :
      ExecEffect s (.rd size off) (answer (readReg (classOf off) s) s)
  | refused (i : Instr) (e : Err) : ExecEffect s i (record e (answerNone s))
  | status (size : Size) (off : BitVec 8) (v : Word) (hp : plainAccess size off = true)
      (hc : classOf off = .status) :
      ExecEffect s (.wr size off v) (writeStatus v (answerNone s))
  | ctrl (size : Size) (off : BitVec 8) (v : Word) (hp : plainAccess size off = true)
      (hc : classOf off = .ctrl) (hb : s.status.busy = false) :
      ExecEffect s (.wr size off v) (writeCtrl v (answerNone s))
  | key (size : Size) (off : BitVec 8) (v : Word) (j : Fin 8) (hp : plainAccess size off = true)
      (hc : classOf off = .key j) (hb : s.status.busy = false) :
      ExecEffect s (.wr size off v) (writeKey j v (answerNone s))
  | iv (size : Size) (off : BitVec 8) (v : Word) (j : Fin 4) (hp : plainAccess size off = true)
      (hc : classOf off = .iv j) (hb : s.status.busy = false) :
      ExecEffect s (.wr size off v) (writeIv j v (answerNone s))
  | din (size : Size) (off : BitVec 8) (v : Word) (j : Fin 16) (hp : plainAccess size off = true)
      (hc : classOf off = .din j) (hb : s.status.busy = false) :
      ExecEffect s (.wr size off v) (writeDin j v (answerNone s))
  | accepted (i : Instr) (c : Cmd) (hi : Issues i c) (hb : s.status.busy = false)
      (hcheck : cmdCheck c s.status = none) :
      ExecEffect s i (accept c (answerNone s))

/-- A command that is issued is refused or accepted (43_register_access.md R159). -/
theorem execEffect_of_issue {i : Instr} {c : Cmd} (hi : Issues i c) {s t : State}
    (h : exec c.toInstr (answerNone s) = .next t) : ExecEffect s i t := by
  rw [exec_toInstr] at h
  cases h
  rcases issue_cases (cmdCheck c s.status) c (answerNone s) with ⟨-, h⟩ | ⟨e, -, -, h⟩ | ⟨hb, hk, h⟩
  · exact h ▸ .refused i .busy
  · exact h ▸ .refused i e
  · exact h ▸ .accepted i c hi hb hk

/-- A command does what its issue does. -/
theorem execEffect_of_command (c : Cmd) {s t : State} (h : exec c.toInstr s = .next t) :
    ExecEffect s c.toInstr t :=
  execEffect_of_issue (.inl rfl) (by rw [exec_toInstr] at h ⊢; exact h)

/-- A write records an error, writes its register, or issues a command. -/
theorem execEffect_of_wr {size : Size} {off : BitVec 8} {v : Word} {s t : State}
    (h : execWr size off v s = .next t) : ExecEffect s (.wr size off v) t := by
  rcases execWr_cases size off v s with
    ⟨e, he⟩ | ⟨hp, ⟨hc, he⟩ | ⟨hb, ⟨hc, he⟩ | ⟨j, hc, he⟩ | ⟨j, hc, he⟩ | ⟨j, hc, he⟩ | ⟨c, hc, hd, he⟩⟩⟩
  all_goals rw [he] at h
  case inr.inr.inr.inr.inr.inr =>
    exact execEffect_of_issue (.inr ⟨size, off, v, rfl, hp, hc, hd⟩) h
  all_goals cases h
  · exact .refused _ e
  · exact .status size off v hp hc
  · exact .ctrl size off v hp hc hb
  · exact .key size off v j hp hc hb
  · exact .iv size off v j hp hc hb
  · exact .din size off v j hp hc hb

/-- Every instruction's meaning is one of the effects. -/
theorem exec_effect {i : Instr} {s t : State} (h : exec i s = .next t) : ExecEffect s i t := by
  cases i with
  | nop => exact execEffect_of_command .nop h
  | ks len => exact execEffect_of_command (.ks len) h
  | xor len => exact execEffect_of_command (.xor len) h
  | clrbuf => exact execEffect_of_command .clrbuf h
  | zeroize => exact execEffect_of_command .zeroize h
  | rd size off =>
    have h' : execRd size off s = .next t := h
    rcases execRd_cases size off s with hr | ⟨hp, hc, hr⟩
    all_goals rw [hr] at h'; cases h'
    · exact .readRefused size off
    · exact .read size off hp hc
  | wr size off v => exact execEffect_of_wr h

/-! ### What a step can do -/

/-- `s` with other values of what the host holds (log 6). -/
def withHost (r : Option Word) (l : List Input) (s : State) : State := { s with resp := r, inputs := l }

/-- What a step can do: every case, with its guards (10_state.md R35; 30_encoding.md R94;
70_reset_and_hazards.md R200, R201, R206). -/
inductive StepEffect (s : State) : State → Prop
  | txn {t : State} (d : BitVec 11) (v : Word) (hn : nextInput s = .txn d v)
      (hr : s.resetIn = false) (he : ExecEffect (takeInput s) (decodeTxn d v) t) : StepEffect s t
  | idle (hn : nextInput s = .clock) (hi : s.resetIn = true ∨ s.pend = none) :
      StepEffect s (takeInput s)
  | completes (c : Cmd) (hn : nextInput s = .clock) (hr : s.resetIn = false)
      (hp : s.pend = some c) (hl : s.left ≤ 1) : StepEffect s (complete c (takeInput s))
  | counts (c : Cmd) (hn : nextInput s = .clock) (hr : s.resetIn = false)
      (hp : s.pend = some c) (hl : 1 < s.left) :
      StepEffect s { takeInput s with left := s.left - 1 }
  | assertReset (hn : nextInput s = .assertReset) : StepEffect s (assertReset (takeInput s))
  | releaseReset (hn : nextInput s = .releaseReset) : StepEffect s (releaseReset (takeInput s))
  | wait (gaps : List Nat) (r : Option Word) (l : List Input) (hn : nextInput s = .wait gaps)
      (hr : s.resetIn = false) : StepEffect s (withHost r l s)

/-- Every step is one of the effects. -/
theorem step_effect {s t : State} (h : step s = .next t) : StepEffect s t := by
  rcases step_cases h with
    ⟨d, v, hn, hr, he⟩ | ⟨hn, rfl⟩ | ⟨hn, rfl⟩ | ⟨hn, rfl⟩ | ⟨gaps, hn, hr, rfl⟩
  · exact .txn d v hn hr (exec_effect he)
  · rcases clockCycle_cases (takeInput s) with ⟨hi, hc⟩ | ⟨c, hr, hp, hl, hc⟩ | ⟨c, hr, hp, hl, hc⟩
    all_goals rw [hc]
    · exact .idle hn hi
    · exact .completes c hn hr hp hl
    · exact .counts c hn hr hp hl
  · exact .assertReset hn
  · exact .releaseReset hn
  · split
    · exact .wait gaps _ _ hn hr
    · exact .wait gaps _ _ hn hr

/-! ### DOUT (10_state.md R32) -/

/-- No instruction changes DOUT. -/
theorem ExecEffect.dout_eq {s t : State} {i : Instr} (h : ExecEffect s i t) : t.dout = s.dout := by
  cases h <;> simp

/-- Settles O48: a transaction, `wait` and the release of reset keep DOUT, and so does NOP's completion. -/
theorem onlyCompletionWritesDout : Obligations.OnlyCompletionWritesDout := by
  intro s t hstep hne
  cases step_effect hstep with
  | txn d v hn hr he => exact absurd he.dout_eq hne
  | completes c hn hr hp hl =>
    refine .inr ⟨hn, hr, hl, c, hp, ?_⟩
    rintro rfl
    exact hne rfl
  | assertReset hn => exact .inl hn
  | idle | counts | releaseReset | wait => exact absurd rfl hne

/-! ### KEYMASK (10_state.md R28) -/

/-- The two bits of the SIZE they stand for (30_encoding.md R84). -/
theorem sizeBits_sizeOfBits (b : BitVec 2) : sizeBits (sizeOfBits b) = b := by
  revert b; decide

/-- A descriptor is made of its fields (30_encoding.md R84). -/
theorem encodeDesc_fields (d : BitVec 11) : encodeDesc (weField d) (sizeField d) (offField d) = d := by
  apply BitVec.eq_of_getLsbD_eq
  intro i hi
  rw [getLsbD_encodeDesc, sizeField, sizeBits_sizeOfBits, weField, offField]
  simp only [BitVec.getLsbD_extractLsb']
  split_ifs with h8 h10
  · simp [h8]
  · have h2 : i - 8 < 2 := by omega
    have he : 8 + (i - 8) = i := by omega
    simp [h2, he]
  · have he : i = 10 := by omega
    simp [he]

/-- A descriptor that decodes to a write is the encoding of that write's (30_encoding.md R85). -/
theorem eq_encodeDesc_of_decodeTxn_wr {d : BitVec 11} {v w : Word} {size : Size} {off : BitVec 8}
    (h : decodeTxn d v = .wr size off w) : d = encodeDesc true size off := by
  have hd := encodeDesc_fields d
  unfold decodeTxn at h
  split at h
  next hwe => cases h; rw [hwe] at hd; exact hd.symm
  next => cases h

/-- The descriptor of a KEY write (30_encoding.md R84, 10_state.md R21). -/
theorem encodeDesc_key (i : Fin 8) :
    encodeDesc true .word (BitVec.ofNat 8 (0x20 + 4 * i.val)) = BitVec.ofNat 11 (0x620 + 4 * i.val) := by
  revert i; decide

/-- Only a KEY write sets a bit of KEYMASK, and no instruction clears one. -/
theorem ExecEffect.keymask_cases {s t : State} {i : Instr} (h : ExecEffect s i t) :
    t.status.keymask = s.status.keymask ∨
    ∃ v j, s.status.busy = false ∧ i = .wr .word (BitVec.ofNat 8 (0x20 + 4 * j.val)) v ∧
      t.status.keymask = s.status.keymask ||| BitVec.twoPow 8 (j : Fin 8).val := by
  cases h with
  | key size off v j hp hc hb =>
    have hsize : size = .word := by simp_all [plainAccess, legalAccess]
    have hoff : offsetOf (.key j) = some off := (registerMap off (.key j) (by simp)).1 hc
    cases hoff
    exact .inr ⟨v, j, hb, by rw [hsize], rfl⟩
  | readRefused | read | refused | status | ctrl | iv | din | accepted => left; simp [clearW1C]

/-- A completion keeps KEYMASK, but ZEROIZE's, which clears it (42_control_commands.md R142). -/
theorem complete_keymask (c : Cmd) (s : State) :
    (complete c s).status.keymask = if c = .zeroize then 0#8 else s.status.keymask := by
  cases c <;> simp [complete, completeCmd]

/-- What a step does to KEYMASK: a KEY write adds a bit, reset and ZEROIZE's completion clear it, and
nothing else changes it. -/
theorem step_keymask_cases {s t : State} (h : step s = .next t) :
    t.status.keymask = s.status.keymask ∨
    (∃ v j, s.status.busy = false ∧ nextInput s = .txn (BitVec.ofNat 11 (0x620 + 4 * j.val)) v ∧
      t.status.keymask = s.status.keymask ||| BitVec.twoPow 8 (j : Fin 8).val) ∨
    (t.status.keymask = 0#8 ∧
      (nextInput s = .assertReset ∨ nextInput s = .clock ∧ s.pend = some .zeroize)) := by
  cases step_effect h with
  | txn d v hn hr he =>
    rcases he.keymask_cases with hk | ⟨w, j, hb, hi, hk⟩
    · exact .inl hk
    · have hd := (eq_encodeDesc_of_decodeTxn_wr hi).trans (encodeDesc_key j)
      exact .inr (.inl ⟨v, j, hb, hd ▸ hn, hk⟩)
  | completes c hn hr hp hl =>
    rw [complete_keymask]
    split
    next hc => exact .inr (.inr ⟨rfl, .inr ⟨hn, hc ▸ hp⟩⟩)
    next => exact .inl rfl
  | assertReset hn => exact .inr (.inr ⟨rfl, .inl hn⟩)
  | idle | counts | releaseReset | wait => exact .inl rfl

/-- The offset of a KEY register is aligned (20_memory.md R62). -/
theorem plainAccess_key (i : Fin 8) :
    plainAccess .word (BitVec.ofNat 8 (0x20 + 4 * i.val)) = true := by
  revert i; decide

/-- A KEY write while BUSY = 0 is taken (43_register_access.md R156). -/
theorem step_key_write {s : State} {i : Fin 8} {v : Word} {rest : List Input}
    (hr : s.resetIn = false) (hb : s.status.busy = false)
    (hin : s.inputs = .txn (BitVec.ofNat 11 (0x620 + 4 * i.val)) v :: rest) :
    step s = .next (writeKey i v (answerNone { s with inputs := rest })) := by
  rw [step_txn hin hr, ← encodeDesc_key, decodeTxn_encodeDesc, if_pos rfl]
  change execWr .word _ v { s with inputs := rest } = _
  rw [execWr_plain _ _ _ _ (plainAccess_key i), classOf_key]
  simp [writeReg, unlessBusy, hb]

/-- With KEYMASK not whole KS and XOR are not accepted (41_keystream_commands.md R122). -/
theorem issue_refused_of_keymask {s : State} (len : BitVec 7) (c : Cmd) (hk : s.status.keymask ≠ 0xFF#8) :
    ∃ e, issue (checkKsXor len s.status) c (answerNone s) = record e (answerNone s) := by
  rcases issue_cases (checkKsXor len s.status) c (answerNone s) with
    ⟨-, h⟩ | ⟨e, -, -, h⟩ | ⟨-, hc, -⟩
  · exact ⟨.busy, h⟩
  · exact ⟨e, h⟩
  · obtain ⟨-, hwhole, -⟩ := (checkKsXor_none len s.status).1 hc
    exact absurd hwhole hk

/-- Bit `i` of KEYMASK after the write of KEYj. -/
theorem getLsbD_or_twoPow (m : BitVec 8) (i j : Fin 8) :
    (m ||| BitVec.twoPow 8 j.val).getLsbD i.val = (m.getLsbD i.val || decide (j = i)) := by
  simp [Fin.ext_iff, eq_comm]

/-- Settles O49: `step_keymask_cases` bit by bit, the KEY write, and the checks of KS and XOR. -/
theorem keymaskWriters : Obligations.KeymaskWriters := by
  refine ⟨fun s t i hstep h0 h1 => ?_, fun s i v rest hr hb hin => ?_, fun s t i hstep h1 h0 => ?_,
    fun len s t hb hk hx => ?_⟩
  · rcases step_keymask_cases hstep with hk | ⟨v, j, hb, hn, hk⟩ | ⟨hk, -⟩
    · rw [hk, h0] at h1; contradiction
    · rw [hk, getLsbD_or_twoPow, h0] at h1
      obtain rfl : j = i := by simpa using h1
      exact ⟨hb, v, hn⟩
    · rw [hk, BitVec.getLsbD_zero] at h1; contradiction
  · refine ⟨_, step_key_write hr hb hin, ?_⟩
    rw [writeKey_status, getLsbD_or_twoPow, decide_eq_true rfl, Bool.or_true]
  · rcases step_keymask_cases hstep with hk | ⟨v, j, -, -, hk⟩ | ⟨hk, hn⟩
    · rw [hk, h1] at h0; contradiction
    · rw [hk, getLsbD_or_twoPow, h1, Bool.true_or] at h0; contradiction
    · exact ⟨hk, hn⟩
  · obtain ⟨c, hex⟩ : ∃ c,
        (.next (issue (checkKsXor len s.status) c (answerNone s)) : Outcome) = .next t := by
      rcases hx with hx | hx
      · exact ⟨_, hx⟩
      · exact ⟨_, hx⟩
    obtain ⟨e, he⟩ := issue_refused_of_keymask len c hk
    rw [he] at hex
    cases hex
    simp [hb]

/-! ### The invariant (10_state.md R25, R33, R34, R35) -/

/-- ERRV and ERRCODE as 10_state.md R25 has them. -/
def ErrorBitsOk (st : Status) : Prop := (st.errv = false → st.errcode = 0#3) ∧ st.errcode ≠ 7#3

/-- The error bits at reset (70_reset_and_hazards.md R200). -/
theorem errorBitsOk_reset : ErrorBitsOk Status.reset := ⟨fun _ => rfl, by decide⟩

/-- No error has code 7 (60_exceptions.md R170). -/
theorem errCode_ne_seven (e : Err) : errCode e ≠ 7#3 := by
  cases e <;> decide

/-- A recorded error keeps them: ERRV is then 1, and the code is the old one or the error's. -/
theorem errorBitsOk_withError {st : Status} (h : ErrorBitsOk st) (e : Err) :
    ErrorBitsOk (withError (errCode e) st) := by
  obtain ⟨-, hseven⟩ := h
  refine ⟨fun hv => absurd hv Bool.noConfusion, ?_⟩
  change (if st.errv then st.errcode else errCode e) ≠ 7#3
  split
  · exact hseven
  · exact errCode_ne_seven e

/-- The W1C write keeps them: it clears ERRCODE with ERRV (43_register_access.md R155). -/
theorem errorBitsOk_clearW1C {st : Status} (h : ErrorBitsOk st) (v : Word) :
    ErrorBitsOk (clearW1C v st) := by
  obtain ⟨hzero, hseven⟩ := h
  unfold ErrorBitsOk clearW1C
  cases v.getLsbD 2
  · simpa using ⟨hzero, hseven⟩
  · simp

/-- Every instruction keeps the invariants of the error bits. -/
theorem ExecEffect.errorBitsOk {s t : State} {i : Instr} (h : ExecEffect s i t)
    (hs : ErrorBitsOk s.status) : ErrorBitsOk t.status := by
  cases h with
  | readRefused => rw [record_eq]; exact errorBitsOk_withError hs .access
  | refused i e => rw [record_eq]; exact errorBitsOk_withError hs e
  | status size off v hp hc => exact errorBitsOk_clearW1C hs v
  | read | ctrl | key | iv | din | accepted => exact hs

/-- Every step keeps the invariants of the error bits. -/
theorem step_errorBitsOk {s t : State} (h : step s = .next t) (hs : ErrorBitsOk s.status) :
    ErrorBitsOk t.status := by
  cases step_effect h with
  | txn d v hn hr he => exact he.errorBitsOk hs
  | completes c hn hr hp hl =>
    obtain ⟨-, -, -, -, -, -, -, hv, hcode, -⟩ := complete_common c (takeInput s)
    unfold ErrorBitsOk
    rw [hv, hcode]
    exact hs
  | assertReset => exact errorBitsOk_reset
  | idle | counts | releaseReset | wait => exact hs

/-- Every instruction keeps "BUSY = 1 exactly when a pending command exists". -/
theorem ExecEffect.busyIffPending {s t : State} {i : Instr} (h : ExecEffect s i t)
    (hs : s.status.busy = s.pend.isSome) : t.status.busy = t.pend.isSome := by
  cases h with
  | accepted => rfl
  | readRefused | read | refused | status | ctrl | key | iv | din => simpa [clearW1C] using hs

/-- Every step keeps "BUSY = 1 exactly when a pending command exists". -/
theorem step_busyIffPending {s t : State} (h : step s = .next t)
    (hs : s.status.busy = s.pend.isSome) : t.status.busy = t.pend.isSome := by
  cases step_effect h with
  | txn d v hn hr he => exact he.busyIffPending hs
  | completes c hn hr hp hl =>
    obtain ⟨hb, -, hpend, -⟩ := complete_common c (takeInput s)
    rw [hb, hpend]; rfl
  | assertReset => rfl
  | idle | counts | releaseReset | wait => exact hs

/-- KEYV and KEYMASK as STATUS reads them (10_state.md R24). -/
theorem statusWord_keyv (st : Status) :
    (statusWord st).getLsbD 8 = true ↔ (statusWord st).extractLsb' 16 8 = 0xFF#8 := by
  have hmask : (statusWord st).extractLsb' 16 8 = st.keymask := by
    apply BitVec.eq_of_getLsbD_eq
    intro i hi
    rw [BitVec.getLsbD_extractLsb', getLsbD_statusWord]
    interval_cases i <;> rfl
  rw [hmask, getLsbD_statusWord]
  exact decide_eq_true_iff

/-- Settles O56: the error bits and BUSY are kept each on their own, and KEYV is computed. -/
theorem statusInvariants : Obligations.StatusInvariants := by
  intro s t hstep hzero hseven hbusy
  obtain ⟨hzero', hseven'⟩ := step_errorBitsOk hstep ⟨hzero, hseven⟩
  exact ⟨hzero', hseven', step_busyIffPending hstep hbusy, statusWord_keyv t.status⟩

/-- Settles O55: every field is at the value R200 gives it. -/
theorem resetMeetsInvariant : Obligations.ResetMeetsInvariant where
  noErrorNoCode := errorBitsOk_reset.1
  codeNotSeven := errorBitsOk_reset.2
  busyIffPending := rfl
  leftBound := Nat.zero_le _
  leftIffPending := iff_of_true rfl rfl
  busyNotDone := fun _ => rfl
  xZero := rfl
  ksZero := rfl
  wrapNeedsKey := fun h => absurd h Bool.false_ne_true
  pendingKeystream := fun len h => by simp [State.reset] at h
  resetHolds := fun h => absurd h Bool.false_ne_true

/-- The error bits of a state that meets the invariant. -/
theorem Inv.errorBitsOk {s : State} (h : Inv s) : ErrorBitsOk s.status :=
  ⟨h.noErrorNoCode, h.codeNotSeven⟩

/-- What the host holds has no part in the invariant (log 6). -/
theorem inv_withHost {s : State} (h : Inv s) (r : Option Word) (l : List Input) :
    Inv (withHost r l s) :=
  { h with
    resetHolds := fun hr => congrArg (withHost r l) (h.resetHolds hr) }

/-- The invariant's clause on reset holds of a state whose reset is released. -/
theorem resetHolds_of_eq {s t : State} (hr : s.resetIn = false) (ht : t.resetIn = s.resetIn) :
    t.resetIn = true → assertReset t = t :=
  fun h1 => absurd (ht.symm.trans h1) (by simp [hr])

/-- Only KS and XOR can set WRAP, and they were accepted with a whole key; ZEROIZE clears WRAP with
KEYMASK. -/
theorem complete_wrapNeedsKey {s : State} (h : Inv s) {c : Cmd} (hp : s.pend = some c)
    (hw : (complete c s).status.wrap = true) : (complete c s).status.keymask = 0xFF#8 := by
  rw [complete_keymask]
  cases c with
  | nop => exact h.wrapNeedsKey hw
  | clrbuf => exact h.wrapNeedsKey hw
  | ks len =>
    obtain ⟨-, hk, -⟩ := h.pendingKeystream len (.inl hp)
    exact hk
  | xor len =>
    obtain ⟨-, hk, -⟩ := h.pendingKeystream len (.inr hp)
    exact hk
  | zeroize => exact absurd hw Bool.false_ne_true

section Released

/-! While reset is released the invariant is kept by each operation. -/

variable {s : State} (h : Inv s) (hr : s.resetIn = false)
include h hr

theorem inv_record (e : Err) : Inv (record e s) := by
  obtain ⟨hzero, hseven⟩ := errorBitsOk_withError h.errorBitsOk e
  rw [record_eq]
  exact { h with noErrorNoCode := hzero, codeNotSeven := hseven, resetHolds := resetHolds_of_eq hr rfl }

theorem inv_writeStatus (v : Word) : Inv (writeStatus v s) := by
  obtain ⟨hzero, hseven⟩ := errorBitsOk_clearW1C h.errorBitsOk v
  exact { h with
    noErrorNoCode := hzero
    codeNotSeven := hseven
    busyNotDone := fun hb => by simp [clearW1C, h.busyNotDone hb]
    resetHolds := resetHolds_of_eq hr rfl }

theorem inv_writeCtrl (v : Word) : Inv (writeCtrl v s) :=
  { h with resetHolds := resetHolds_of_eq hr rfl }

theorem inv_writeDin (i : Fin 16) (v : Word) : Inv (writeDin i v s) :=
  { h with resetHolds := resetHolds_of_eq hr rfl }

/-- A whole KEYMASK stays whole. -/
theorem inv_writeKey (i : Fin 8) (v : Word) : Inv (writeKey i v s) := by
  have hwhole : s.status.keymask = 0xFF#8 → (writeKey i v s).status.keymask = 0xFF#8 := by
    intro hk
    change s.status.keymask ||| _ = _
    rw [hk]
    exact BitVec.allOnes_or
  exact { h with
    wrapNeedsKey := fun hw => hwhole (h.wrapNeedsKey hw)
    pendingKeystream := fun len hp =>
      have ⟨hlen, hk, hw⟩ := h.pendingKeystream len hp
      ⟨hlen, hwhole hk, hw⟩
    resetHolds := resetHolds_of_eq hr rfl }

theorem inv_writeIv (i : Fin 4) (v : Word) : Inv (writeIv i v s) :=
  { h with
    wrapNeedsKey := fun hw => absurd hw Bool.false_ne_true
    pendingKeystream := fun len hp =>
      have ⟨hlen, hk, _⟩ := h.pendingKeystream len hp
      ⟨hlen, hk, rfl⟩
    resetHolds := resetHolds_of_eq hr rfl }

/-- An accepted KS or XOR has passed its checks (41_keystream_commands.md R122). -/
theorem inv_accept {c : Cmd} (hc : cmdCheck c s.status = none) : Inv (accept c s) :=
  { h with
    busyIffPending := rfl
    leftBound := le_rfl
    leftIffPending := iff_of_false (Nat.succ_ne_zero _) (Option.some_ne_none c)
    busyNotDone := fun _ => rfl
    pendingKeystream := fun len hp => by
      rcases hp with hp | hp <;> cases hp <;> exact (checkKsXor_none len s.status).1 hc
    resetHolds := resetHolds_of_eq hr rfl }

/-- LEFT falls without reaching 0. -/
theorem inv_counts {c : Cmd} (hp : s.pend = some c) (hl : 1 < s.left) :
    Inv { s with left := s.left - 1 } :=
  { h with
    leftBound := (Nat.sub_le _ _).trans h.leftBound
    leftIffPending := iff_of_false (by simp; omega) (by simp [hp])
    resetHolds := resetHolds_of_eq hr rfl }

theorem inv_complete {c : Cmd} (hp : s.pend = some c) : Inv (complete c s) := by
  obtain ⟨hbusy, -, hpend, hleft, hx, hks, -, hv, hcode, -, hreset, -, -⟩ := complete_common c s
  exact {
    noErrorNoCode := by rw [hv, hcode]; exact h.noErrorNoCode
    codeNotSeven := by rw [hcode]; exact h.codeNotSeven
    busyIffPending := by rw [hbusy, hpend]; rfl
    leftBound := by rw [hleft]; exact Nat.zero_le _
    leftIffPending := iff_of_true hleft hpend
    busyNotDone := fun hb => by rw [hbusy] at hb; contradiction
    xZero := hx
    ksZero := hks
    wrapNeedsKey := complete_wrapNeedsKey h hp
    pendingKeystream := fun len hl => by simp [hpend] at hl
    resetHolds := resetHolds_of_eq hr hreset }

/-- Every instruction keeps the invariant while reset is released. -/
theorem ExecEffect.inv {i : Instr} {t : State} (he : ExecEffect s i t) : Inv t := by
  have h0 : Inv (answerNone s) := inv_withHost h none s.inputs
  cases he with
  | readRefused => exact inv_withHost (inv_record h hr .access) _ _
  | read => exact inv_withHost h _ _
  | refused i e => exact inv_record h0 hr e
  | status size off v hp hc => exact inv_writeStatus h0 hr v
  | ctrl size off v hp hc hb => exact inv_writeCtrl h0 hr v
  | key size off v j hp hc hb => exact inv_writeKey h0 hr j v
  | iv size off v j hp hc hb => exact inv_writeIv h0 hr j v
  | din size off v j hp hc hb => exact inv_writeDin h0 hr j v
  | accepted i c hi hb hcheck => exact inv_accept h0 hr hcheck

end Released

/-- Asserted reset has the reset values (70_reset_and_hazards.md R200). -/
theorem inv_assertReset (s : State) : Inv (assertReset s) :=
  { resetMeetsInvariant with resetHolds := fun _ => rfl }

/-- The release of reset keeps everything else (70_reset_and_hazards.md R201). -/
theorem inv_releaseReset {s : State} (h : Inv s) : Inv (releaseReset s) :=
  { h with resetHolds := fun hr => absurd hr Bool.false_ne_true }

/-- Settles O57: each effect of a step keeps the invariant. -/
theorem stepKeepsInvariant : Obligations.StepKeepsInvariant := by
  intro s t h hstep
  have htake : Inv (takeInput s) := inv_withHost h s.resp s.inputs.tail
  cases step_effect hstep with
  | txn d v hn hr he => exact he.inv htake hr
  | idle hn hi => exact htake
  | completes c hn hr hp hl => exact inv_complete htake hr hp
  | counts c hn hr hp hl => exact inv_counts htake hr hp hl
  | assertReset hn => exact inv_assertReset _
  | releaseReset hn => exact inv_releaseReset htake
  | wait gaps r l hn hr => exact inv_withHost h r l

/-! ### The key never shows (10_state.md R27, R33) -/

section Secrets

variable {s t : State} (h : sameButSecrets s t)
include h

/-- An operation that neither reads the secrets nor changes them but alike keeps them the only
difference. -/
theorem sameButSecrets_congr {f : State → State} (hf : withSecretsOf (f s) (f t) = f (withSecretsOf s t)) :
    sameButSecrets (f s) (f t) :=
  hf.trans (congrArg f h)

theorem sameButSecrets_status : t.status = s.status := by
  have hst : (withSecretsOf s t).status = s.status := congrArg State.status h
  exact hst

/-- Recording an error reads STATUS only. -/
theorem sameButSecrets_record (e : Err) : sameButSecrets (record e s) (record e t) := by
  rw [record_eq, record_eq]
  exact sameButSecrets_congr (f := fun u => { u with status := withError (errCode e) u.status }) h rfl

/-- Issue reads STATUS only. -/
theorem sameButSecrets_issue (check : Option Err) (c : Cmd) :
    sameButSecrets (issue check c s) (issue check c t) := by
  unfold issue
  rw [sameButSecrets_status h]
  split
  · exact sameButSecrets_record h .busy
  · cases check with
    | some e => exact sameButSecrets_record h e
    | none => exact sameButSecrets_congr (f := accept c) h rfl

/-- A read returns none of the secrets: KEY reads 0, and x and ks are no registers. -/
theorem readReg_eq_of_sameButSecrets (c : RegClass) : readReg c t = readReg c s := by
  rw [← h]
  cases c <;> rfl

end Secrets

/-- Both outcomes are next states, and they differ in the secrets only. -/
def SameOutcome (a b : Outcome) : Prop :=
  ∃ s' t', a = .next s' ∧ b = .next t' ∧ sameButSecrets s' t'

theorem sameOutcome_next {s t : State} (h : sameButSecrets s t) : SameOutcome (.next s) (.next t) :=
  ⟨s, t, rfl, rfl, h⟩

/-- What a read answers, both cases in one equation (43_register_access.md R150). -/
theorem execRd_eq (size : Size) (off : BitVec 8) (s : State) :
    execRd size off s = .next (
      if plainAccess size off = true ∧ classOf off ≠ .reserved then answer (readReg (classOf off) s) s
      else answer 0#32 (record .access s)) := by
  unfold execRd
  cases plainAccess size off
  · simp
  · cases classOf off <;> simp

section Secrets

variable {s t : State} (h : sameButSecrets s t)
include h

theorem sameOutcome_record (e : Err) : SameOutcome (.next (record e s)) (.next (record e t)) :=
  sameOutcome_next (sameButSecrets_record h e)

/-- The BUSY check reads STATUS only. -/
theorem sameOutcome_unlessBusy {a b : Outcome} (hw : SameOutcome a b) :
    SameOutcome (unlessBusy s a) (unlessBusy t b) := by
  unfold unlessBusy
  rw [sameButSecrets_status h]
  split
  · exact sameOutcome_record h .busy
  · exact hw

theorem sameOutcome_command (c : Cmd) : SameOutcome (exec c.toInstr s) (exec c.toInstr t) := by
  rw [exec_toInstr, exec_toInstr, sameButSecrets_status h]
  exact sameOutcome_next (sameButSecrets_issue (sameButSecrets_congr (f := answerNone) h rfl) _ c)

theorem sameOutcome_writeCmd (v : Word) : SameOutcome (writeCmd v s) (writeCmd v t) := by
  unfold writeCmd
  cases decodeCmd v with
  | reject r => exact sameOutcome_record h .illegalCmd
  | ok c =>
    have hc := sameOutcome_command h c
    cases c <;> exact hc

/-- Each write puts the same word in the same register of both states. -/
theorem sameOutcome_writeReg (c : RegClass) (v : Word) :
    SameOutcome (writeReg c v s) (writeReg c v t) := by
  cases c with
  | id | dout | reserved => exact sameOutcome_record h .access
  | status => exact sameOutcome_next (sameButSecrets_congr (f := writeStatus v) h rfl)
  | ctrl => exact sameOutcome_unlessBusy h (sameOutcome_next (sameButSecrets_congr (f := writeCtrl v) h rfl))
  | key i => exact sameOutcome_unlessBusy h (sameOutcome_next (sameButSecrets_congr (f := writeKey i v) h rfl))
  | iv i => exact sameOutcome_unlessBusy h (sameOutcome_next (sameButSecrets_congr (f := writeIv i v) h rfl))
  | din i => exact sameOutcome_unlessBusy h (sameOutcome_next (sameButSecrets_congr (f := writeDin i v) h rfl))
  | cmd => exact sameOutcome_unlessBusy h (sameOutcome_writeCmd h v)

theorem sameOutcome_rd (size : Size) (off : BitVec 8) :
    SameOutcome (execRd size off s) (execRd size off t) := by
  rw [execRd_eq, execRd_eq, readReg_eq_of_sameButSecrets h]
  refine sameOutcome_next ?_
  split
  · exact sameButSecrets_congr (f := answer _) h rfl
  · exact sameButSecrets_congr (f := answer _) (sameButSecrets_record h .access) rfl

theorem sameOutcome_wr (size : Size) (off : BitVec 8) (v : Word) :
    SameOutcome (execWr size off v s) (execWr size off v t) := by
  have h0 : sameButSecrets (answerNone s) (answerNone t) :=
    sameButSecrets_congr (f := answerNone) h rfl
  cases hp : plainAccess size off
  · rw [execWr_refused _ _ _ _ hp, execWr_refused _ _ _ _ hp]
    exact sameOutcome_record h0 .access
  · rw [execWr_plain _ _ _ _ hp, execWr_plain _ _ _ _ hp]
    exact sameOutcome_writeReg h0 _ v

theorem sameOutcome_exec (i : Instr) : SameOutcome (exec i s) (exec i t) := by
  cases i with
  | nop => exact sameOutcome_command h .nop
  | ks len => exact sameOutcome_command h (.ks len)
  | xor len => exact sameOutcome_command h (.xor len)
  | clrbuf => exact sameOutcome_command h .clrbuf
  | zeroize => exact sameOutcome_command h .zeroize
  | rd size off => exact sameOutcome_rd h size off
  | wr size off v => exact sameOutcome_wr h size off v

end Secrets

/-- Settles O59: the answer and irq are read from fields that both next states share. -/
theorem keyNeverShows : Obligations.KeyNeverShows := by
  intro i s t h
  obtain ⟨s', t', hs, ht, h'⟩ := sameOutcome_exec h i
  have heq : withSecretsOf s' t' = s' := h'
  exact ⟨s', t', hs, ht, h', (congrArg State.resp heq).symm, (congrArg irq heq).symm⟩

/-! ### Time (10_state.md R35; 70_reset_and_hazards.md R206) -/

/-- The counter advance does not read LEFT. -/
theorem counterAdvance_update_left (s : State) (n : Nat) :
    counterAdvance { s with left := n } = { counterAdvance s with left := n } := by
  unfold counterAdvance; split <;> rfl

/-- The counter advance does not read what the host holds. -/
theorem counterAdvance_withHost (r : Option Word) (l : List Input) (s : State) :
    counterAdvance (withHost r l s) = withHost r l (counterAdvance s) := by
  unfold counterAdvance withHost; split <;> rfl

/-- A completion does not read LEFT. -/
theorem complete_update_left (c : Cmd) (s : State) (n : Nat) :
    complete c { s with left := n } = complete c s := by
  have hown : completeCmd c { s with left := n } = { completeCmd c s with left := n } := by
    cases c with
    | nop | clrbuf | zeroize => rfl
    | ks len => exact counterAdvance_update_left { loadKeystream s with dout := _ } n
    | xor len => exact counterAdvance_update_left { loadKeystream s with dout := _ } n
  unfold complete
  rw [hown]
  rfl

/-- A completion does not read what the host holds. -/
theorem complete_withHost (c : Cmd) (r : Option Word) (l : List Input) (s : State) :
    complete c (withHost r l s) = withHost r l (complete c s) := by
  cases c with
  | nop | clrbuf | zeroize => rfl
  | ks len =>
    exact congrArg finish (counterAdvance_withHost r l { loadKeystream s with dout := _ })
  | xor len =>
    exact congrArg finish (counterAdvance_withHost r l { loadKeystream s with dout := _ })

/-- Nothing happens while reset is asserted or no command is pending (10_state.md R35). -/
theorem clockCycle_of_idle {s : State} (h : s.resetIn = true ∨ s.pend = none) : clockCycle s = s := by
  unfold clockCycle
  rcases h with h | h
  · simp [h]
  · simp [h]

/-- A cycle before the last lowers LEFT (10_state.md R35). -/
theorem clockCycle_of_lt {s : State} {c : Cmd} (hr : s.resetIn = false) (hp : s.pend = some c)
    (hl : 1 < s.left) : clockCycle s = { s with left := s.left - 1 } := by
  simp [clockCycle, hr, hp, Nat.not_le.2 hl]

/-- The last cycle completes the command (10_state.md R35). -/
theorem clockCycle_of_le {s : State} {c : Cmd} (hr : s.resetIn = false) (hp : s.pend = some c)
    (hl : s.left ≤ 1) : clockCycle s = complete c s := by
  simp [clockCycle, hr, hp, hl]

/-- A clock cycle does not read what the host holds. -/
theorem clockCycle_withHost (r : Option Word) (l : List Input) (s : State) :
    clockCycle (withHost r l s) = withHost r l (clockCycle s) := by
  rcases clockCycle_cases s with ⟨hi, h⟩ | ⟨c, hr, hp, hl, h⟩ | ⟨c, hr, hp, hl, h⟩
  all_goals rw [h]
  · exact clockCycle_of_idle hi
  · exact (clockCycle_of_le (s := withHost r l s) hr hp hl).trans (complete_withHost c r l s)
  · exact clockCycle_of_lt hr hp hl

/-- Clock cycles do not read what the host holds. -/
theorem clocks_withHost (r : Option Word) (l : List Input) (n : Nat) :
    ∀ s : State, clocks n (withHost r l s) = withHost r l (clocks n s) := by
  induction n with
  | zero => exact fun _ => rfl
  | succ n ih => intro s; rw [clocks, clocks, clockCycle_withHost, ih]

/-- Nothing happens in any number of cycles with no command pending. -/
theorem clocks_of_not_pending {s : State} (hp : s.pend = none) (n : Nat) : clocks n s = s := by
  induction n with
  | zero => rfl
  | succ n ih => rw [clocks, clockCycle_of_idle (.inr hp), ih]

/-- Fewer than LEFT cycles lower LEFT and change nothing else. -/
theorem clocks_of_lt_left {c : Cmd} (n : Nat) : ∀ s : State, s.resetIn = false → s.pend = some c →
    n < s.left → clocks n s = { s with left := s.left - n } := by
  induction n with
  | zero => exact fun _ _ _ _ => rfl
  | succ n ih =>
    intro s hr hp hl
    rw [clocks, clockCycle_of_lt hr hp (by omega), ih { s with left := s.left - 1 } hr hp (by simp only; omega)]
    simp only [Nat.sub_sub, Nat.add_comm 1 n]

/-- LEFT cycles or more complete the command, and those past the completion do nothing. -/
theorem clocks_of_left_le {c : Cmd} (n : Nat) : ∀ s : State, s.resetIn = false → s.pend = some c →
    s.left ≤ n + 1 → clocks (n + 1) s = complete c s := by
  induction n with
  | zero => exact fun _ hr hp hl => clockCycle_of_le hr hp hl
  | succ n ih =>
    intro s hr hp hl
    rw [clocks]
    by_cases h1 : s.left ≤ 1
    · obtain ⟨-, -, hpend, -⟩ := complete_common c s
      rw [clockCycle_of_le hr hp h1, clocks_of_not_pending hpend]
    · rw [clockCycle_of_lt hr hp (by omega),
        ih { s with left := s.left - 1 } hr hp (by simp only; omega), complete_update_left]

/-- A step whose input is a clock cycle, waiting or not (log 2). -/
theorem step_clock {s : State} (hn : nextInput s = .clock) :
    step s = .next (withHost s.resp s.inputs.tail (clockCycle s)) := by
  rw [← clockCycle_withHost]
  unfold step
  rw [hn]
  rfl

/-- Steps whose inputs are clock cycles, waiting or not, are those cycles (log 2). -/
theorem run_clocks (n : Nat) : ∀ s : State, (∀ i ∈ s.inputs.take n, i = .clock) →
    Host.Core.run core n s = .next (withHost s.resp (s.inputs.drop n) (clocks n s)) := by
  induction n with
  | zero => exact fun _ _ => rfl
  | succ n ih =>
    intro s hin
    have hn : nextInput s = .clock := by
      unfold nextInput
      cases hs : s.inputs with
      | nil => rfl
      | cons i rest => exact hin i (by simp [hs])
    have htail : ∀ i ∈ s.inputs.tail.take n, i = .clock := by
      intro i hi
      refine hin i ?_
      cases hs : s.inputs <;> simp_all
    rw [run_succ (step_clock hn), ih _ htail, clocks_withHost]
    simp [withHost, clocks]

/-- A run is the run of its first steps and then of the others. -/
theorem run_add {M : Host.Core} {a b : Nat} : ∀ {s t : M.State}, M.run a s = .next t →
    M.run (a + b) s = M.run b t := by
  induction a with
  | zero =>
    intro s t h
    cases h
    rw [Nat.zero_add]
  | succ a ih =>
    intro s t h
    rw [Nat.succ_add]
    simp only [Host.Core.run] at h ⊢
    cases hs : M.step s with
    | next u => rw [hs] at h; exact ih h
    | fault e => rw [hs] at h; cases h
    | refused e => rw [hs] at h; cases h

/-- Some number of steps from `s` answers `t`. -/
def Reaches (s t : State) : Prop := ∃ k, Host.Core.run core k s = .next t

theorem reaches_of_step {s t : State} (h : step s = .next t) : Reaches s t := ⟨1, run_succ h 0⟩

theorem Reaches.trans {s t u : State} : Reaches s t → Reaches t u → Reaches s u
  | ⟨a, ha⟩, ⟨b, hb⟩ => ⟨a + b, (run_add ha).trans hb⟩

/-- `wait` ends on a read of STATUS with bit 0 = 0 (30_encoding.md R94). -/
theorem step_wait_of_idle {s : State} {gaps : List Nat} {rest : List Input}
    (hin : s.inputs = .wait gaps :: rest) (hr : s.resetIn = false) (hb : s.status.busy = false) :
    step s = .next (withHost (some (statusWord s.status)) rest s) := by
  simp [step, nextInput, takeInput, withHost, answer, hin, hr, hb, hostWait_eq]

/-- `wait` goes on after a read of STATUS with bit 0 = 1 (30_encoding.md R94, log 15). -/
theorem step_wait_of_busy {s : State} {gaps : List Nat} {rest : List Input}
    (hin : s.inputs = .wait gaps :: rest) (hr : s.resetIn = false) (hb : s.status.busy = true) :
    step s = .next (withHost (some (statusWord s.status))
      (List.replicate (gaps.headD 0 + 1) .clock ++ .wait gaps.tail :: rest) s) := by
  simp [step, nextInput, takeInput, withHost, waitAgain, answer, hin, hr, hb, hostWait_eq]

/-- One turn of `wait` while a command is pending: STATUS is read, the gap's clock cycles pass, and
`wait` is next again. -/
theorem reaches_wait_turn {s : State} {gaps : List Nat} {rest : List Input}
    (hin : s.inputs = .wait gaps :: rest) (hr : s.resetIn = false) (hb : s.status.busy = true) :
    Reaches s (withHost (some (statusWord s.status)) (.wait gaps.tail :: rest)
      (clocks (gaps.headD 0 + 1) s)) := by
  refine (reaches_of_step (step_wait_of_busy hin hr hb)).trans ⟨gaps.headD 0 + 1, ?_⟩
  rw [run_clocks, clocks_withHost]
  · simp [withHost]
  · intro i hi
    have hclocks : i ∈ List.replicate (gaps.headD 0 + 1) Input.clock := by simpa [withHost] using hi
    exact List.eq_of_mem_replicate hclocks

/-- `wait` ends in the completed state, whatever the pace: a turn completes the command, or lowers LEFT
and leaves the rest of the wait, which is shorter. -/
theorem reaches_wait_end {c : Cmd} {rest : List Input} {s : State} {gaps : List Nat}
    (hin : s.inputs = .wait gaps :: rest) (hr : s.resetIn = false) (hb : s.status.busy = true)
    (hp : s.pend = some c) :
    Reaches s (withHost (some (statusWord (complete c s).status)) rest (complete c s)) := by
  induction hn : s.left using Nat.strong_induction_on generalizing s gaps with
  | _ n ih =>
    subst hn
    have hturn := reaches_wait_turn hin hr hb
    by_cases hlast : s.left ≤ gaps.headD 0 + 1
    · obtain ⟨hbusy, -, -, -, -, -, -, -, -, -, hreset, -⟩ := complete_common c s
      rw [clocks_of_left_le _ s hr hp hlast] at hturn
      exact hturn.trans (reaches_of_step (step_wait_of_idle rfl (hreset.trans hr) hbusy))
    · rw [clocks_of_lt_left _ s hr hp (by omega)] at hturn
      have hrest := ih (s.left - (gaps.headD 0 + 1)) (by omega)
        (s := withHost (some (statusWord s.status)) (.wait gaps.tail :: rest)
          { s with left := s.left - (gaps.headD 0 + 1) }) rfl hr hb hp rfl
      rw [complete_withHost, complete_update_left] at hrest
      exact hturn.trans hrest

/-- With nothing waiting a run is the clock's (log 2). -/
theorem run_of_no_inputs {s : State} (hin : s.inputs = []) (n : Nat) :
    Host.Core.run core n s = .next (withHost s.resp s.inputs (clocks n s)) := by
  rw [run_clocks n s (by simp [hin]), hin, List.drop_nil]

/-- Settles O45: LEFT cycles and no fewer complete the command (`clocks_of_lt_left`,
`clocks_of_left_le`), and every `wait` ends (`reaches_wait_end`). -/
theorem commandCompletesInTime : Obligations.CommandCompletesInTime := by
  refine ⟨fun s c n hin hr hp hl => ⟨fun k hk => ?_, ?_⟩, fun s c gaps rest hin hr hb hp => ⟨?_, ?_⟩⟩
  · rw [run_of_no_inputs hin, clocks_of_lt_left k s hr hp (by omega), hl]
    rfl
  · rw [run_of_no_inputs hin, clocks_of_left_le n s hr hp hl.le, ← complete_withHost]
    rfl
  · obtain ⟨hbusy, -⟩ := complete_common c s
    rw [getLsbD_statusWord, if_pos rfl, hbusy]
  · exact reaches_wait_end hin hr hb hp

end Sys2Proof.Machine
end

