-- ==== Sys2Proof/Proofs/Memory.lean ====
section
/-! PROOF. Refused transactions, reads without side effect, and the frame of a write (20_memory.md,
sections 3 and 4). -/

namespace Sys2Proof.Machine

/-! ### Refused transactions (20_memory.md R62, R63) -/

/-- A narrow or misaligned transaction is not in the plain form. -/
theorem plainAccess_of_refused {size : Size} {off : BitVec 8} (h : off.toNat % 4 ≠ 0 ∨ size ≠ .word) :
    plainAccess size off = false := by
  unfold plainAccess legalAccess
  rcases h with hoff | hsize
  · simp [hoff]
  · simp [hsize]

/-- An offset names no register exactly if a read of it is refused (10_state.md R21). -/
theorem classOf_eq_reserved_iff (off : BitVec 8) :
    classOf off = .reserved ↔ readRefused off.toNat = true := by
  unfold classOf readRefused
  split_ifs <;> simp <;> omega

/-- ACCESS applies to a read outside the plain form or of no register (60_exceptions.md R170). -/
theorem accessApplies_rd (size : Size) (off : BitVec 8) :
    accessApplies (.rd size off) = false ↔ plainAccess size off = true ∧ classOf off ≠ .reserved := by
  rw [ne_eq, classOf_eq_reserved_iff]
  cases hr : readRefused off.toNat with
  | true => simp [accessApplies, hr]
  | false =>
    have haligned : off.toNat % 4 = 0 := by
      simp only [readRefused, Bool.or_eq_false_iff, decide_eq_false_iff_not, not_not] at hr
      exact hr.1.1
    simp [accessApplies, plainAccess, legalAccess, hr, haligned]

/-- A read to which ACCESS does not apply returns its register and changes nothing. -/
theorem exec_rd_of_allowed {size : Size} {off : BitVec 8} (h : accessApplies (.rd size off) = false)
    (s : State) : exec (.rd size off) s = .next (answer (readReg (classOf off) s) s) :=
  (execRd_eq size off s).trans (by rw [if_pos ((accessApplies_rd size off).1 h)])

/-- A read to which ACCESS applies returns 0 and records ACCESS. -/
theorem exec_rd_of_refused {size : Size} {off : BitVec 8} (h : accessApplies (.rd size off) = true)
    (s : State) : exec (.rd size off) s = .next (answer 0#32 (record .access s)) :=
  (execRd_eq size off s).trans (by
    rw [if_neg fun hp => Bool.false_ne_true (((accessApplies_rd size off).2 hp).symm.trans h)])

/-- Settles O13: such a transaction is not in the plain form, and recording ACCESS is `record_eq`. -/
theorem misalignedOrNarrowRefused : Obligations.MisalignedOrNarrowRefused := by
  intro size off v s h
  have hp := plainAccess_of_refused h
  have hrd : exec (.rd size off) s = .next (answer 0#32 (record .access s)) :=
    (execRd_eq size off s).trans (by simp [hp])
  have hwr : exec (.wr size off v) s = .next (record .access (answerNone s)) :=
    execWr_refused size off v s hp
  rw [hrd, hwr, record_eq, record_eq]
  exact ⟨rfl, rfl⟩

/-! ### Reads (20_memory.md R64) -/

/-- The answer of the last read is no part of what a read returns. -/
theorem readReg_answer (c : RegClass) (v : Word) (s : State) : readReg c (answer v s) = readReg c s := by
  cases c <;> rfl

/-- Settles O16: whether ACCESS applies depends on the transaction alone, so both reads answer alike. -/
theorem readsHaveNoSideEffect : Obligations.ReadsHaveNoSideEffect := by
  intro size off s t u ht hu
  cases ha : accessApplies (.rd size off) with
  | false =>
    rw [exec_rd_of_allowed ha] at ht hu
    cases ht
    cases hu
    exact ⟨rfl, fun _ => rfl, nofun, congrArg some (readReg_answer _ _ s), nofun⟩
  | true =>
    rw [exec_rd_of_refused ha, record_eq] at ht hu
    cases ht
    cases hu
    exact ⟨rfl, nofun, fun _ => rfl, rfl, nofun⟩

/-! ### The frame of WR (43_register_access.md R153) -/

/-- An offset that falls in a register is that register's number in the map (10_state.md R21). -/
theorem toNat_of_classOf {off : BitVec 8} {c : RegClass} {n : Nat} (hc : classOf off = c)
    (ho : offsetOf c = some (BitVec.ofNat 8 n)) (hn : n < 256) : off.toNat = n := by
  have hmap : offsetOf (classOf off) = some off := by
    refine offsetOf_classOf fun hr => ?_
    rw [← hc, hr] at ho
    cases ho
  rw [hc, ho] at hmap
  cases hmap
  exact Nat.mod_eq_of_lt hn

/-- A write that issues a command is a CMD write (30_encoding.md R93). -/
theorem classOf_of_issues {size : Size} {off : BitVec 8} {v : Word} {c : Cmd}
    (h : Issues (.wr size off v) c) : classOf off = .cmd := by
  rcases h with h | ⟨_, _, _, h, -, hc, -⟩
  · cases c <;> cases h
  · cases h
    exact hc

/-- Settles O25: each effect of a write touches its own register, and the class of the offset fixes the
offset. -/
theorem writeFrame : Obligations.WriteFrame := by
  intro size off v s t h
  cases execEffect_of_wr h with
  | refused _ e => simp
  | status _ _ _ hp hc =>
    have hoff := toNat_of_classOf (n := 0x04) hc rfl (by omega)
    simp [hoff, clearW1C]
  | ctrl _ _ _ hp hc hb =>
    have hoff := toNat_of_classOf (n := 0x00) hc rfl (by omega)
    simp [hoff]
  | key _ _ _ j hp hc hb =>
    have hoff := toNat_of_classOf (n := 0x20 + 4 * j.val) hc rfl (by omega)
    simp +contextual [hoff, Vector.getElem_set_ne, eq_comm]
  | iv _ _ _ j hp hc hb =>
    have hoff := toNat_of_classOf (n := 0x40 + 4 * j.val) hc rfl (by omega)
    simp +contextual [hoff, Vector.getElem_set_ne]
  | din _ _ _ j hp hc hb =>
    have hoff := toNat_of_classOf (n := 0x80 + 4 * j.val) hc rfl (by omega)
    simp +contextual [hoff, Vector.getElem_set_ne]
  | accepted _ c hi hb hcheck =>
    have hoff := toNat_of_classOf (n := 0x08) (classOf_of_issues hi) rfl (by omega)
    simp [hoff]

end Sys2Proof.Machine
end

