-- ==== Sys2Proof/Proofs/Encoding.lean ====
section
/-! PROOF. Command words and descriptors (30_encoding.md): decode and encode are inverse, which codes are
refused, and the pseudo-instructions that load KEY and IV. -/

namespace Sys2Proof

/-! ### The fields of a command word (30_encoding.md R80) -/

/-- A word is made of its four fields. -/
theorem append_wordFields (w : Word) : rsv1Field w ++ lenField w ++ rsv0Field w ++ opField w = w := by
  apply BitVec.eq_of_getLsbD_eq
  intro i hi
  simp only [BitVec.getLsbD_append, rsv1Field, lenField, rsv0Field, opField, BitVec.getLsbD_extractLsb']
  interval_cases i <;> rfl

@[simp] theorem opField_encodeCmd (c : Cmd) : opField (encodeCmd c) = cmdOp c := by
  apply BitVec.eq_of_getLsbD_eq
  intro i hi
  simp [opField, getLsbD_encodeCmd, hi]

@[simp] theorem rsv0Field_encodeCmd (c : Cmd) : rsv0Field (encodeCmd c) = 0#4 := by
  apply BitVec.eq_of_getLsbD_eq
  intro i hi
  have h8 : 4 + i < 8 := by omega
  simp [rsv0Field, getLsbD_encodeCmd, h8]

@[simp] theorem lenField_encodeCmd (c : Cmd) : lenField (encodeCmd c) = cmdLen c := by
  apply BitVec.eq_of_getLsbD_eq
  intro i hi
  have h4 : ¬ 8 + i < 4 := by omega
  simp [lenField, getLsbD_encodeCmd, hi, h4]

@[simp] theorem rsv1Field_encodeCmd (c : Cmd) : rsv1Field (encodeCmd c) = 0#17 := by
  apply BitVec.eq_of_getLsbD_eq
  intro i hi
  have h4 : ¬ 15 + i < 4 := by omega
  have h8 : ¬ 15 + i < 8 := by omega
  have hlen : (cmdLen c).getLsbD (15 + i - 8) = false := BitVec.getLsbD_of_ge _ _ (by omega)
  simp [rsv1Field, getLsbD_encodeCmd, h4, h8, hlen]

/-- A word is a command's exactly if its reserved fields are 0 and OP and LEN are the command's. -/
theorem encodeCmd_eq_iff (w : Word) (c : Cmd) :
    encodeCmd c = w ↔
      rsv1Field w = 0#17 ∧ rsv0Field w = 0#4 ∧ opField w = cmdOp c ∧ lenField w = cmdLen c := by
  constructor
  · rintro rfl
    simp
  · rintro ⟨h1, h0, hop, hlen⟩
    rw [encodeCmd, ← h1, ← h0, ← hop, ← hlen, append_wordFields]

/-! The fields as arithmetic on the word (30_encoding.md R87). -/

theorem opField_toNat (w : Word) : (opField w).toNat = w.toNat % 16 := by
  simp [opField]

theorem rsv0Field_toNat (w : Word) : (rsv0Field w).toNat = w.toNat / 16 % 16 := by
  simp [rsv0Field, Nat.shiftRight_eq_div_pow]

theorem lenField_toNat (w : Word) : (lenField w).toNat = w.toNat / 256 % 128 := by
  simp [lenField, Nat.shiftRight_eq_div_pow]

theorem rsv1Field_toNat (w : Word) : (rsv1Field w).toNat = w.toNat / 32768 := by
  have hlt : w.toNat / 32768 < 2 ^ 17 := Nat.div_lt_of_lt_mul w.isLt
  rw [rsv1Field, BitVec.extractLsb'_toNat, Nat.shiftRight_eq_div_pow, Nat.mod_eq_of_lt hlt]

/-! ### The command decoder (30_encoding.md R87) -/

/-- A command without operand is read exactly from LEN = 0 (30_encoding.md R82). -/
theorem needLenZero_eq_ok_iff (len : BitVec 7) (c c' : Cmd) :
    needLenZero len c = .ok c' ↔ len = 0#7 ∧ c = c' := by
  unfold needLenZero
  split <;> simp [*]

theorem needLenZero_rejects_iff (len : BitVec 7) (c : Cmd) :
    (∃ r, needLenZero len c = .reject r) ↔ len ≠ 0#7 := by
  unfold needLenZero
  split <;> simp [*]

/-- Which words decode to a command, by their fields. -/
theorem decodeCmd_eq_ok_iff (w : Word) (c : Cmd) :
    decodeCmd w = .ok c ↔
      rsv1Field w = 0#17 ∧ rsv0Field w = 0#4 ∧ opField w = cmdOp c ∧ lenField w = cmdLen c := by
  constructor
  · intro h
    unfold decodeCmd at h
    split at h
    next => cases h
    next hr =>
      push Not at hr
      refine ⟨hr.1, hr.2, ?_⟩
      split at h
      case h_1 hop | h_4 hop | h_5 hop =>
        obtain ⟨hlen, rfl⟩ := (needLenZero_eq_ok_iff _ _ _).1 h
        exact ⟨BitVec.eq_of_toNat_eq hop, hlen⟩
      case h_2 hop | h_3 hop =>
        cases h
        exact ⟨BitVec.eq_of_toNat_eq hop, rfl⟩
      case h_6 => cases h
  · rintro ⟨h1, h0, hop, hlen⟩
    unfold decodeCmd
    rw [if_neg (by simp [h1, h0]), hop, hlen]
    cases c <;> rfl

/-- Which words are rejected, by their fields (30_encoding.md R86). -/
theorem decodeCmd_rejects_iff (w : Word) :
    (∃ r, decodeCmd w = .reject r) ↔
      rsv0Field w ≠ 0#4 ∨ rsv1Field w ≠ 0#17 ∨ 5 ≤ (opField w).toNat ∨
        ((opField w).toNat = 0 ∨ (opField w).toNat = 3 ∨ (opField w).toNat = 4) ∧
          lenField w ≠ 0#7 := by
  unfold decodeCmd
  split
  next hr => exact iff_of_true ⟨_, rfl⟩ (by tauto)
  next hr =>
    push Not at hr
    split
    case h_1 hop | h_2 hop | h_3 hop | h_4 hop | h_5 hop =>
      simp [hop, hr, needLenZero_rejects_iff]
    case h_6 h0 h1 h2 h3 h4 =>
      have hop : 5 ≤ (opField w).toNat := by simp only [imp_false] at h0 h1 h2 h3 h4; omega
      exact iff_of_true ⟨_, rfl⟩ (.inr (.inr (.inl hop)))

/-- A word decodes to a command exactly if it is that command's (30_encoding.md R86). -/
theorem decodeCmd_eq_ok_iff_encodeCmd (w : Word) (c : Cmd) : decodeCmd w = .ok c ↔ encodeCmd c = w :=
  (decodeCmd_eq_ok_iff w c).trans (encodeCmd_eq_iff w c).symm

@[simp] theorem decodeCmd_encodeCmd (c : Cmd) : decodeCmd (encodeCmd c) = .ok c :=
  (decodeCmd_eq_ok_iff_encodeCmd _ c).2 rfl

theorem decode_cmd_encodeCmd (c : Cmd) : decode (.cmd (encodeCmd c)) = .ok c.toInstr := by
  rw [decode, decodeCmd_encodeCmd, Decoded.map]

/-- Settles O1: a command's word by `decodeCmd_encodeCmd`, a descriptor by `decodeTxn_encodeDesc`. -/
theorem decodeOfEncode : Obligations.DecodeOfEncode := by
  intro i
  cases i with
  | nop => exact decode_cmd_encodeCmd .nop
  | ks len => exact decode_cmd_encodeCmd (.ks len)
  | xor len => exact decode_cmd_encodeCmd (.xor len)
  | clrbuf => exact decode_cmd_encodeCmd .clrbuf
  | zeroize => exact decode_cmd_encodeCmd .zeroize
  | rd size off => exact congrArg Decoded.ok (decodeTxn_encodeDesc false size off 0#32)
  | wr size off v => exact congrArg Decoded.ok (decodeTxn_encodeDesc true size off v)

/-- Settles O3: every clause fixes the fields of the word, by which it is accepted
(`decodeCmd_eq_ok_iff`) or rejected (`decodeCmd_rejects_iff`). -/
theorem commandDecoder : Obligations.CommandDecoder := by
  rintro w _ _ _ _ rfl rfl rfl rfl
  simp only [decodeCmd_rejects_iff, decodeCmd_eq_ok_iff, ne_eq, ← BitVec.toNat_inj, opField_toNat,
    rsv0Field_toNat, lenField_toNat, rsv1Field_toNat, cmdOp, cmdLen, BitVec.toNat_ofNat, Nat.reducePow,
    Nat.reduceMod]
  omega

/-! ### Descriptors (30_encoding.md R84, R85) -/

/-! The fields as arithmetic on the descriptor. -/

theorem weField_eq (d : BitVec 11) : weField d = decide (d.toNat / 1024 = 1) := by
  have hlt : d.toNat / 2 ^ 10 < 2 := Nat.div_lt_of_lt_mul d.isLt
  rw [weField, BitVec.getLsbD, Nat.testBit_eq_decide_div_mod_eq, Nat.mod_eq_of_lt hlt]
  rfl

theorem sizeField_eq_word_iff (d : BitVec 11) : sizeField d = .word ↔ d.toNat / 256 % 4 = 2 := by
  have hsize : ∀ b : BitVec 2, sizeOfBits b = .word ↔ b.toNat = 2 := by decide
  simp [sizeField, hsize, Nat.shiftRight_eq_div_pow]

theorem offField_eq (d : BitVec 11) : offField d = BitVec.ofNat 8 (d.toNat % 256) := by
  apply BitVec.eq_of_toNat_eq
  simp [offField]

/-- A descriptor is the encoding of what it decodes to. -/
theorem encode_decodeTxn (d : BitVec 11) (v : Word) :
    encode (decodeTxn d v) = .host d (if weField d then v else 0#32) := by
  have hd := Machine.encodeDesc_fields d
  unfold decodeTxn
  cases hwe : weField d
  all_goals
    rw [hwe] at hd
    simp [encode, hd]

/-- Settles O2: words by `decodeCmd_eq_ok_iff_encodeCmd`, descriptors by `encode_decodeTxn`. -/
theorem everyCodeHasOneMeaning : Obligations.EveryCodeHasOneMeaning := by
  refine ⟨decodeCmd_eq_ok_iff_encodeCmd, fun d v => ?_⟩
  rw [encode_decodeTxn, weField_eq]
  simp only [decide_eq_true_eq]

/-- A command word is `OP | LEN << 8` (30_encoding.md R83). -/
theorem encodeCmd_eq_or (c : Cmd) :
    encodeCmd c = (cmdOp c).setWidth 32 ||| ((cmdLen c).setWidth 32 <<< 8) := by
  apply BitVec.eq_of_getLsbD_eq
  intro i hi
  rw [getLsbD_encodeCmd]
  have hop : 4 ≤ i → (cmdOp c).getLsbD i = false := BitVec.getLsbD_of_ge _ _
  split_ifs with h4 h8
  · have h8 : i < 8 := by omega
    simp [hi, h8]
  · simp [h8, hop (by omega)]
  · simp [hi, h8, hop (by omega)]

/-- Settles O5: each is `encodeCmd_eq_or` at that command. -/
theorem commandWords : Obligations.CommandWords :=
  ⟨encodeCmd_eq_or .nop, fun n => encodeCmd_eq_or (.ks n), fun n => encodeCmd_eq_or (.xor n),
    encodeCmd_eq_or .clrbuf, encodeCmd_eq_or .zeroize, encodeCmd_eq_or (.ks 32#7),
    encodeCmd_eq_or (.ks 64#7), encodeCmd_eq_or (.xor 50#7), encodeCmd_eq_or (.xor 64#7)⟩

/-- Settles O6: the decoder evaluates each written word. -/
theorem writtenWordsDecode : Obligations.WrittenWordsDecode :=
  ⟨rfl, rfl, rfl, rfl, rfl, rfl, rfl, rfl, rfl, rfl⟩

end Sys2Proof

namespace Sys2Proof.Machine

/-! ### What the block does with a code -/

/-- An illegal word written to CMD while BUSY = 0 records ILLEGAL_CMD (30_encoding.md R86). -/
theorem exec_wr_cmd_of_reject {w : Word} {r : Reject} (hr : decodeCmd w = .reject r) {s : State}
    (hb : s.status.busy = false) :
    exec (.wr .word cmdOffset w) s = .next (record .illegalCmd (answerNone s)) := by
  have hwr : exec (.wr .word cmdOffset w) s = unlessBusy (answerNone s) (writeCmd w (answerNone s)) := rfl
  simp [hwr, unlessBusy, writeCmd, hb, hr]

/-- Settles O4: the rejected words by `decodeCmd_rejects_iff`, their effect by `exec_wr_cmd_of_reject`;
a word that is not rejected decodes to a command, whose word alone it is. -/
theorem illegalCommandWords : Obligations.IllegalCommandWords := by
  refine ⟨fun w => ?_, fun w r s hr hb => ?_, fun w hw => ?_⟩
  · simp only [decodeCmd_rejects_iff, ne_eq, ← BitVec.toNat_inj, opField_toNat, rsv0Field_toNat,
      lenField_toNat, rsv1Field_toNat, BitVec.toNat_ofNat, Nat.zero_mod]
  · refine (exec_wr_cmd_of_reject hr hb).trans ?_
    rw [record_eq]
    rfl
  · cases hd : decodeCmd w with
    | reject r => exact absurd hd (hw r)
    | ok c =>
      refine ⟨c, (decodeCmd_eq_ok_iff_encodeCmd w c).1 hd, fun c' hc => ?_⟩
      have hd' := (decodeCmd_eq_ok_iff_encodeCmd w c').2 hc
      exact Decoded.ok.inj (hd'.symm.trans hd)

/-- Settles O7: the fields by `weField_eq`, `sizeField_eq_word_iff` and `offField_eq`; the refusal is that
of a narrow or misaligned transaction (`misalignedOrNarrowRefused`). -/
theorem descriptorDecode : Obligations.DescriptorDecode := by
  refine ⟨fun d v hsize hoff => ?_, fun d v s h => ?_, fun v => ⟨rfl, rfl, rfl, rfl⟩⟩
  · rw [decodeTxn, weField_eq, (sizeField_eq_word_iff d).2 hsize, offField_eq]
    exact ⟨fun hwe => by simp [hwe], fun hwe => by simp [hwe]⟩
  · have hform : (offField d).toNat % 4 ≠ 0 ∨ sizeField d ≠ .word := by
      rw [ne_eq (sizeField d), sizeField_eq_word_iff, offField_eq, BitVec.toNat_ofNat]
      omega
    obtain ⟨hrd, hwr⟩ := misalignedOrNarrowRefused (sizeField d) (offField d) v s hform
    have hlt := d.isLt
    rw [decodeTxn, weField_eq]
    by_cases hwe : d.toNat / 1024 = 1
    · simpa [hwe] using hwr
    · have hzero : d.toNat / 1024 = 0 := by omega
      simpa [hzero] using hrd

/-- Settles O10: the command's word decodes to it, and `exec_wr_cmd` runs what a CMD write decodes to. -/
theorem commandIsOneCmdWrite : Obligations.CommandIsOneCmdWrite :=
  fun c s => ⟨(exec_wr_cmd (decodeCmd_encodeCmd c) s).symm, rfl⟩

/-! ### Series of writes (30_encoding.md R94) -/

/-- From an idle block, the input is taken in one step that does `write` and leaves the block idle. -/
def TakenAs (input : Input) (write : State → State) : Prop :=
  ∀ (s : State) (rest : List Input), idle s →
    idle (write s) ∧ step { s with inputs := input :: rest } = .next { write s with inputs := rest }

/-- A series of inputs, each taken in one step, is the series of their writes. -/
theorem run_of_takenAs {ι : Type} {input : ι → Input} {write : ι → State → State}
    (h : ∀ i, TakenAs (input i) (write i)) (rest : List Input) (l : List ι) (s : State) (hs : idle s) :
    Host.Core.run core l.length { s with inputs := l.map input ++ rest } =
      .next { l.foldl (fun t i => write i t) s with inputs := rest } := by
  induction l generalizing s with
  | nil => rfl
  | cons i l ih =>
    obtain ⟨hidle, hstep⟩ := h i s (l.map input ++ rest) hs
    exact (run_succ hstep l.length).trans (ih (write i s) hidle)

/-- A write of a register is taken while the block is idle: BUSY = 0 lets it through
(43_register_access.md R153). -/
theorem takenAs_wrInput {off : BitVec 8} {v : Word} {write : State → State}
    (hp : plainAccess .word off = true)
    (hw : ∀ s, writeReg (classOf off) v s = unlessBusy s (.next (write s)))
    (hidle : ∀ s, idle s → idle (write s))
    (hin : ∀ s l, write { s with inputs := l } = { write s with inputs := l }) :
    TakenAs (wrInput off v) (fun s => write (answerNone s)) := by
  rintro s rest ⟨hb, hr⟩
  refine ⟨hidle _ ⟨hb, hr⟩, ?_⟩
  rw [step_txn (s := { s with inputs := wrInput off v :: rest }) rfl hr, decodeTxn_encodeDesc]
  change execWr .word off v { s with inputs := rest } = _
  rw [execWr_plain _ _ _ _ hp, hw, unlessBusy, if_neg (by simp [hb])]
  exact congrArg _ (hin (answerNone s) rest)

theorem takenAs_key (i : Fin 8) (v : Word) :
    TakenAs (wrInput (BitVec.ofNat 8 (0x20 + 4 * i.val)) v) (fun s => writeKey i v (answerNone s)) :=
  takenAs_wrInput (plainAccess_key i) (fun _ => by rw [classOf_key, writeReg]) (fun _ h => h)
    (fun _ _ => rfl)

/-- The offset of an IV register is aligned (20_memory.md R62). -/
theorem plainAccess_iv (i : Fin 4) : plainAccess .word (BitVec.ofNat 8 (0x40 + 4 * i.val)) = true := by
  revert i; decide

theorem takenAs_iv (i : Fin 4) (v : Word) :
    TakenAs (wrInput (BitVec.ofNat 8 (0x40 + 4 * i.val)) v) (fun s => writeIv i v (answerNone s)) :=
  takenAs_wrInput (plainAccess_iv i) (fun _ => by rw [classOf_iv, writeReg]) (fun _ h => h)
    (fun _ _ => rfl)

/-! ### Loading KEY and IV (30_encoding.md R94) -/

/-- A register file after its elements `l`, in order, are written with the values `f`. -/
def setEach {n : Nat} (f : Fin n → Word) (l : List (Fin n)) (v : Vector Word n) : Vector Word n :=
  l.foldl (fun u (i : Fin n) => u.set i (f i)) v

theorem getElem_setEach {n : Nat} (f : Fin n → Word) (l : List (Fin n)) (v : Vector Word n) (j : Fin n) :
    (setEach f l v)[j] = if j ∈ l then f j else v[j] := by
  induction l generalizing v with
  | nil => simp [setEach]
  | cons i l ih =>
    have hset : (v.set i (f i))[j] = if j = i then f j else v[j] := by
      by_cases hij : j = i
      · simp [hij]
      · simp [hij, Fin.val_inj, Ne.symm hij]
    rw [setEach, List.foldl_cons, ← setEach, ih, hset]
    by_cases hij : j = i
    · simp [hij]
    · simp [hij]

/-- Writing every element leaves what was written. -/
theorem setEach_finRange {n : Nat} (f : Fin n → Word) (v : Vector Word n) :
    setEach f (List.finRange n) v = .ofFn f := by
  apply Vector.ext
  intro j hj
  have h := getElem_setEach f (List.finRange n) v ⟨j, hj⟩
  rw [if_pos (List.mem_finRange _)] at h
  rw [Vector.getElem_ofFn]
  exact h

/-- Every bit of KEYMASK is set once every key word is written (43_register_access.md R156). -/
theorem foldl_or_twoPow_finRange (m : BitVec 8) :
    (List.finRange 8).foldl (fun k i => k ||| BitVec.twoPow 8 i.val) m = 0xFF#8 := by
  revert m
  decide

/-- What a series of KEY writes changes: KEY and KEYMASK (43_register_access.md R156). -/
theorem foldl_writeKey (f : Fin 8 → Word) (l : List (Fin 8)) (s : State) :
    l.foldl (fun t i => writeKey i (f i) (answerNone t)) s =
      { s with
        key := setEach f l s.key
        status := { s.status with
          keymask := l.foldl (fun k i => k ||| BitVec.twoPow 8 i.val) s.status.keymask }
        resp := if l = [] then s.resp else none } := by
  induction l generalizing s with
  | nil => rfl
  | cons i l ih =>
    rw [List.foldl_cons, ih]
    cases l <;> rfl

/-- What a series of IV writes changes: IV and WRAP (43_register_access.md R157). -/
theorem foldl_writeIv (f : Fin 4 → Word) (l : List (Fin 4)) (s : State) :
    l.foldl (fun t i => writeIv i (f i) (answerNone t)) s =
      { s with
        iv := setEach f l s.iv
        status := { s.status with wrap := if l = [] then s.status.wrap else false }
        resp := if l = [] then s.resp else none } := by
  induction l generalizing s with
  | nil => rfl
  | cons i l ih =>
    rw [List.foldl_cons, ih]
    cases l <;> rfl

/-- The eight KEY writes of the words `f`, in order, load the key and make it whole
(43_register_access.md R156). -/
theorem run_loadKey {s : State} {rest : List Input} (f : Fin 8 → Word) (hs : idle s)
    (hin : s.inputs = (List.finRange 8).map (fun i : Fin 8 =>
      wrInput (BitVec.ofNat 8 (0x20 + 4 * i.val)) (f i)) ++ rest) :
    Host.Core.run core 8 s = .next { s with
      key := .ofFn f, status := { s.status with keymask := 0xFF#8 }, resp := none, inputs := rest } := by
  have hrun := run_of_takenAs (fun i : Fin 8 => takenAs_key i (f i)) rest (List.finRange 8) s hs
  rw [← hin, foldl_writeKey, setEach_finRange, foldl_or_twoPow_finRange] at hrun
  exact hrun

/-- The four IV writes of the words `f`, in order, load the IV and clear WRAP
(43_register_access.md R157). -/
theorem run_loadIv {s : State} {rest : List Input} (f : Fin 4 → Word) (hs : idle s)
    (hin : s.inputs = (List.finRange 4).map (fun i : Fin 4 =>
      wrInput (BitVec.ofNat 8 (0x40 + 4 * i.val)) (f i)) ++ rest) :
    Host.Core.run core 4 s = .next { s with
      iv := .ofFn f, status := { s.status with wrap := false }, resp := none, inputs := rest } := by
  have hrun := run_of_takenAs (fun i : Fin 4 => takenAs_iv i (f i)) rest (List.finRange 4) s hs
  rw [← hin, foldl_writeIv, setEach_finRange] at hrun
  exact hrun

/-- A 64-bit counter is its high and its low word (10_state.md R30). -/
theorem extractLsb'_append_counter (c : BitVec 64) : c.extractLsb' 32 32 ++ c.extractLsb' 0 32 = c := by
  apply BitVec.eq_of_getLsbD_eq
  intro i hi
  rw [BitVec.getLsbD_append]
  split
  next h => simp [h]
  next h =>
    have hlt : i - 32 < 32 := by omega
    have heq : 32 + (i - 32) = i := by omega
    simp [hlt, heq]

/-- Settles O60: the expansions are series of KEY or IV writes (`run_loadKey`, `run_loadIv`). -/
theorem loadPseudoInstructions : Obligations.LoadPseudoInstructions := by
  intro s k rest hs
  refine ⟨fun hin => ?_, fun c hin => ?_, fun c hin => ?_⟩
  · have hrun := run_loadKey (fun i => wordOfBytes k i.val) hs hin
    exact ⟨_, hrun, fun i => Vector.getElem_ofFn i.isLt, rfl⟩
  · have hrun := run_loadIv
      ![c.extractLsb' 0 32, c.extractLsb' 32 32, wordOfBytes k 0, wordOfBytes k 1] hs hin
    refine ⟨_, hrun, rfl, fun hc => ?_⟩
    rw [blockCounter, if_pos hc]
    exact congrArg BitVec.toNat (extractLsb'_append_counter c)
  · have hrun := run_loadIv ![c, wordOfBytes k 0, wordOfBytes k 1, wordOfBytes k 2] hs hin
    refine ⟨_, hrun, rfl, fun hc => ?_⟩
    rw [blockCounter, if_neg (by simp [hc])]
    rfl

end Sys2Proof.Machine
end

