-- ==== Sys2Proof/Proofs/BlockFunction.lean ====
section
/-! PROOF. The block function (40_block_function.md): the quarter round, the order of the quarter rounds
in a double round, the initial state and the keystream bytes. -/

namespace Sys2Proof.Machine

/-! ### The quarter round (40_block_function.md R101) -/

/-- A rotation by less than the width of a word, as two shifts (00_scope.md R11). -/
theorem rotateLeft_eq_shifts (w : Word) {n : Nat} (hn : n < 32) :
    w.rotateLeft n = (w <<< n) ||| (w >>> (32 - n)) := by
  rw [BitVec.rotateLeft_def, Nat.mod_eq_of_lt hn]

/-- Settles O27: the model's rotations are the rule's shifts (`rotateLeft_eq_shifts`). -/
theorem quarterRound_eq_rule : Obligations.QuarterRound := by
  refine ⟨?_, by decide, by decide⟩
  intro rotl hrotl a b c d a1 b1 c1 d1 a2 b2 c2 d2 ha1 hd1 hc1 hb1 ha2 hd2 hc2 hb2
  have hrot (w : Word) {n : Nat} (hn : n < 32) : rotl w n = w.rotateLeft n := by
    rw [hrotl, rotateLeft_eq_shifts w hn]
  rw [hrot _ (by decide)] at hd1 hb1 hd2 hb2
  subst_vars
  rfl

/-! ### Quarter rounds on disjoint words commute (40_block_function.md R102, R107) -/

/-- The four indices of a quarter round. -/
abbrev Quad := Fin 16 × Fin 16 × Fin 16 × Fin 16

/-- The indices as a list. -/
def Quad.indices (q : Quad) : List (Fin 16) := [q.1, q.2.1, q.2.2.1, q.2.2.2]

/-- The model's quarter round at four indices, in the argument order of a fold. -/
def quarterRoundOn (x : Vector Word 16) (q : Quad) : Vector Word 16 :=
  quarterRoundAt q.1 q.2.1 q.2.2.1 q.2.2.2 x

/-- The four words that a quarter round writes. -/
def Quad.result (q : Quad) (x : Vector Word 16) : Word × Word × Word × Word :=
  quarterRound x[q.1] x[q.2.1] x[q.2.2.1] x[q.2.2.2]

/-- The working state with four words written at the four indices. -/
def Quad.write (q : Quad) (w : Word × Word × Word × Word) (x : Vector Word 16) : Vector Word 16 :=
  (((x.set q.1 w.1).set q.2.1 w.2.1).set q.2.2.1 w.2.2.1).set q.2.2.2 w.2.2.2

/-- A quarter round reads four words, and writes its result over them. -/
theorem quarterRoundOn_eq_write (x : Vector Word 16) (q : Quad) :
    quarterRoundOn x q = q.write (q.result x) x := rfl

/-- A quarter round leaves every word it is not given. -/
theorem getElem_quarterRoundOn (x : Vector Word 16) {q : Quad} {m : Fin 16} (hm : m ∉ q.indices) :
    (quarterRoundOn x q)[m] = x[m] := by
  simp only [Quad.indices, List.mem_cons, List.not_mem_nil, or_false, not_or, ← ne_eq] at hm
  obtain ⟨h1, h2, h3, h4⟩ := hm
  simp [quarterRoundOn_eq_write, Quad.write, Fin.val_inj, h1.symm, h2.symm, h3.symm, h4.symm]

/-- Writing a word that a quarter round is not given commutes with the quarter round. -/
theorem quarterRoundOn_set (x : Vector Word 16) {q : Quad} {m : Fin 16} (w : Word)
    (hm : m ∉ q.indices) : quarterRoundOn (x.set m w) q = (quarterRoundOn x q).set m w := by
  simp only [Quad.indices, List.mem_cons, List.not_mem_nil, or_false, not_or, ← ne_eq] at hm
  obtain ⟨h1, h2, h3, h4⟩ := hm
  have hread {n : Fin 16} (hn : m ≠ n) : (x.set m w)[n] = x[n] :=
    Vector.getElem_set_ne _ _ (Fin.val_ne_of_ne hn)
  have hwrite {n : Fin 16} (hn : m ≠ n) (y : Vector Word 16) (v : Word) :
      (y.set m w).set n v = (y.set n v).set m w :=
    Vector.set_comm _ _ (Fin.val_ne_of_ne hn)
  simp only [quarterRoundOn_eq_write, Quad.write, Quad.result, hread h1, hread h2, hread h3, hread h4,
    hwrite h1, hwrite h2, hwrite h3, hwrite h4]

/-- Quarter rounds on disjoint words commute: neither changes what the other reads. -/
theorem quarterRoundOn_comm {p q : Quad} (h : ∀ m ∈ p.indices, m ∉ q.indices) (x : Vector Word 16) :
    quarterRoundOn (quarterRoundOn x p) q = quarterRoundOn (quarterRoundOn x q) p := by
  simp only [Quad.indices.eq_def p, List.forall_mem_cons] at h
  obtain ⟨h1, h2, h3, h4, -⟩ := h
  have hwrite (w : Word × Word × Word × Word) :
      quarterRoundOn (p.write w x) q = p.write w (quarterRoundOn x q) := by
    simp only [Quad.write, quarterRoundOn_set _ _ h1, quarterRoundOn_set _ _ h2,
      quarterRoundOn_set _ _ h3, quarterRoundOn_set _ _ h4]
  have hread : p.result (quarterRoundOn x q) = p.result x := by
    simp only [Quad.result, getElem_quarterRoundOn _ h1, getElem_quarterRoundOn _ h2,
      getElem_quarterRoundOn _ h3, getElem_quarterRoundOn _ h4]
  rw [quarterRoundOn_eq_write x p, hwrite, quarterRoundOn_eq_write _ p, hread]

/-! ### The double round (40_block_function.md R102) -/

/-- The columns of the working state. -/
def columnQuads : List Quad := [(0, 4, 8, 12), (1, 5, 9, 13), (2, 6, 10, 14), (3, 7, 11, 15)]

/-- The diagonals of the working state. -/
def diagonalQuads : List Quad := [(0, 5, 10, 15), (1, 6, 11, 12), (2, 7, 8, 13), (3, 4, 9, 14)]

theorem doubleRound_eq_foldl (x : Vector Word 16) :
    doubleRound x = (columnQuads ++ diagonalQuads).foldl quarterRoundOn x := rfl

/-- The quarter rounds of a list of pairwise disjoint or equal quads may be done in any order. -/
theorem foldl_quarterRoundOn_perm {l l' : List Quad} (hp : l'.Perm l)
    (hl : ∀ p ∈ l, ∀ q ∈ l, p = q ∨ ∀ m ∈ p.indices, m ∉ q.indices) (x : Vector Word 16) :
    l'.foldl quarterRoundOn x = l.foldl quarterRoundOn x := by
  refine (hp.symm.foldl_eq' (fun p hpl q hql y => ?_) x).symm
  obtain rfl | hdisj := hl p hpl q hql
  · rfl
  · exact quarterRoundOn_comm hdisj y

/-- Settles O28: distinct columns are disjoint, and so are distinct diagonals
(`foldl_quarterRoundOn_perm`). -/
theorem doubleRound_any_order : Obligations.DoubleRound := by
  refine ⟨fun columns diagonals hc hd x => ?_, by decide +kernel⟩
  have hcolumns := foldl_quarterRoundOn_perm (l := columnQuads) hc (by decide)
  have hdiagonals := foldl_quarterRoundOn_perm (l := diagonalQuads) hd (by decide)
  calc doubleRound x
    _ = diagonalQuads.foldl quarterRoundOn (columnQuads.foldl quarterRoundOn x) := by
      rw [doubleRound_eq_foldl, List.foldl_append]
    _ = (columns ++ diagonals).foldl quarterRoundOn x := by
      rw [List.foldl_append, hcolumns, hdiagonals]

/-! ### The initial state (40_block_function.md R103) -/

theorem initialState_key (key : Vector Word 8) (iv : Vector Word 4) (i : Fin 8) :
    (initialState key iv).getD (4 + i.val) 0#32 = key[i] := by
  fin_cases i <;> rfl

theorem initialState_iv (key : Vector Word 8) (iv : Vector Word 4) (i : Fin 4) :
    (initialState key iv).getD (12 + i.val) 0#32 = iv[i] := by
  fin_cases i <;> rfl

/-- Settles O29: the constants by definition, then `initialState_key` and `initialState_iv`. -/
theorem initialState_words : Obligations.InitialState := fun key iv =>
  ⟨rfl, rfl, rfl, rfl, initialState_key key iv, initialState_iv key iv⟩

/-! ### The block function (40_block_function.md R104) -/

theorem repeatDoubleRound_eq_iterate (n : Nat) (x : Vector Word 16) :
    repeatDoubleRound n x = doubleRound^[n] x := by
  induction n generalizing x with
  | zero => rfl
  | succ n ih => exact ih (doubleRound x)

theorem workedState_eq_iterate (key : Vector Word 8) (iv : Vector Word 4) :
    workedState key iv = doubleRound^[10] (initialState key iv) := by
  unfold workedState
  exact repeatDoubleRound_eq_iterate Config.doubleRounds _

theorem feedForward_getD (x s : Vector Word 16) {j : Nat} (hj : j < 16) :
    (feedForward x s).getD j 0#32 = x.getD j 0#32 + s.getD j 0#32 := by
  simp [feedForward, Vector.getD, hj]

/-- Byte `i` of the block, from the words before and after the double rounds. -/
theorem block_getElem (key : Vector Word 8) (iv : Vector Word 4) (i : Fin 64) :
    (block key iv)[i] = lane ((workedState key iv).getD (i.val / 4) 0#32 +
      (initialState key iv).getD (i.val / 4) 0#32) (i.val % 4) := by
  have hword : i.val / 4 < 16 := by omega
  calc (block key iv)[i]
    _ = fileByte (blockWords key iv) i.val := by
      rw [block]; exact bytesOfFile_get _ i.val i.isLt
    _ = _ := by rw [fileByte, blockWords, feedForward_getD _ _ hword]

/-- Settles O30: each byte by `block_getElem`; the examples and the non-zero block by evaluation. -/
theorem blockFunction : Obligations.BlockFunction := by
  refine ⟨?_, by decide +kernel, by decide +kernel, by decide +kernel⟩
  rintro key iv x s rfl rfl i
  rw [block_getElem, workedState_eq_iterate, lane]

end Sys2Proof.Machine
end

