-- ==== Sys2Proof/Proofs/KeystreamCommands.lean ====
section
/-! PROOF. The keystream commands (41_keystream_commands.md): the frame of an issue and its checks, the
counter advance, what KS and XOR leave, runs of them, whole messages, and the writers of WRAP. -/

namespace Sys2Proof.Machine

/-! ### Issue and its checks (41_keystream_commands.md R122, R123) -/

/-- Settles O26: an issue records one error or accepts, and both have their frames. -/
theorem issueFrame : Obligations.IssueFrame := by
  intro c s t h
  rw [exec_toInstr] at h
  cases h
  rcases issue_cases (cmdCheck c s.status) c (answerNone s) with ⟨-, h⟩ | ⟨e, -, -, h⟩ | ⟨-, -, h⟩
  all_goals rw [h]; simp

/-- A command whose check fails while BUSY = 0 records that error and changes nothing else. -/
theorem exec_of_check_some {c : Cmd} {s : State} {e : Err} (hb : s.status.busy = false)
    (hc : cmdCheck c s.status = some e) :
    exec c.toInstr s = .next { s with resp := none, status := withError (errCode e) s.status } := by
  have hissue : issue (some e) c (answerNone s) = record e (answerNone s) := by simp [issue, hb]
  rw [exec_toInstr, hc, hissue, record_eq]
  rfl

/-- A command whose check passes while BUSY = 0 is accepted. -/
theorem exec_of_check_none {c : Cmd} {s : State} (hb : s.status.busy = false)
    (hc : cmdCheck c s.status = none) :
    exec c.toInstr s = .next (accept c (answerNone s)) := by
  rw [exec_toInstr, hc]
  simp [issue, hb]

/-! Which check of KS and XOR fails first. -/

theorem checkKsXor_badLen {len : BitVec 7} (h : len.toNat = 0 ∨ 64 < len.toNat) (st : Status) :
    checkKsXor len st = some .badLen := if_pos h

section LegalLen

variable {len : BitVec 7} (h1 : 1 ≤ len.toNat) (h2 : len.toNat ≤ 64) {st : Status}
include h1 h2

theorem checkKsXor_noKey (hk : st.keymask ≠ 0xFF#8) : checkKsXor len st = some .noKey := by
  rw [checkKsXor, if_neg (by omega), if_pos hk]

theorem checkKsXor_ctrExhausted (hk : st.keymask = 0xFF#8) (hw : st.wrap = true) :
    checkKsXor len st = some .ctrExhausted := by
  rw [checkKsXor, if_neg (by omega), if_neg (not_not.2 hk), if_pos hw]

theorem checkKsXor_passes (hk : st.keymask = 0xFF#8) (hw : st.wrap = false) :
    checkKsXor len st = none :=
  (checkKsXor_none len st).2 ⟨by simp [legalLen, h1, h2], hk, hw⟩

end LegalLen

/-- KS and XOR have the same check. -/
theorem cmdCheck_keystream {c : Cmd} {len : BitVec 7} (hc : c = .ks len ∨ c = .xor len) (st : Status) :
    cmdCheck c st = checkKsXor len st := by
  rcases hc with rfl | rfl <;> rfl

/-- Settles O33: the first failing check decides (`exec_of_check_some`), and with none the command is
accepted (`exec_of_check_none`). -/
theorem ksXorChecks : Obligations.KsXorChecks := by
  intro len s hb c hc
  have hcheck := cmdCheck_keystream hc s.status
  refine ⟨fun h => ?_, fun h1 h2 hk => ?_, fun h1 h2 hk hw => ?_, fun h1 h2 hk hw => ?_⟩
  · exact exec_of_check_some hb (hcheck.trans (checkKsXor_badLen h _))
  · exact exec_of_check_some hb (hcheck.trans (checkKsXor_noKey h1 h2 hk))
  · exact exec_of_check_some hb (hcheck.trans (checkKsXor_ctrExhausted h1 h2 hk hw))
  · exact exec_of_check_none hb (hcheck.trans (checkKsXor_passes h1 h2 hk hw))

/-! ### The counter advance (41_keystream_commands.md R124) -/

theorem blockCounter_lt (s : State) : blockCounter s < counterRange s.ctrl := by
  unfold blockCounter counterRange
  split
  · exact (s.iv[1] ++ s.iv[0]).isLt
  · exact s.iv[0].isLt

/-! A 64-bit number in the two counter words (10_state.md R30). -/

theorem ofNat_append_ofNat (n : Nat) :
    (BitVec.ofNat 32 (n / 2 ^ 32) ++ BitVec.ofNat 32 n : BitVec 64) = BitVec.ofNat 64 n := by
  apply BitVec.eq_of_toNat_eq
  rw [BitVec.toNat_append, ← Nat.shiftLeft_add_eq_or_of_lt (BitVec.isLt _), Nat.shiftLeft_eq]
  simp only [BitVec.toNat_ofNat]
  omega

theorem extractLsb'_low_ofNat (n : Nat) :
    (BitVec.ofNat 64 n).extractLsb' 0 32 = BitVec.ofNat 32 n := by
  apply BitVec.eq_of_toNat_eq
  simp only [BitVec.extractLsb'_toNat, BitVec.toNat_ofNat, Nat.shiftRight_zero]
  omega

theorem extractLsb'_high_ofNat (n : Nat) :
    (BitVec.ofNat 64 n).extractLsb' 32 32 = BitVec.ofNat 32 (n / 2 ^ 32) := by
  apply BitVec.eq_of_toNat_eq
  simp only [BitVec.extractLsb'_toNat, BitVec.toNat_ofNat, Nat.shiftRight_eq_div_pow]
  omega

theorem add_one_eq_ofNat {w : Nat} (c : BitVec w) : c + 1#w = BitVec.ofNat w (c.toNat + 1) := by
  rw [BitVec.ofNat_add, BitVec.ofNat_toNat, BitVec.setWidth_eq]

theorem eq_allOnes_iff {w : Nat} (c : BitVec w) : c = BitVec.allOnes w ↔ c.toNat + 1 = 2 ^ w := by
  have hpos : 0 < 2 ^ w := Nat.two_pow_pos w
  rw [← BitVec.toNat_inj, BitVec.toNat_allOnes]
  omega

/-- The block counter of an IV with counter `n` is `n`, as far as it has room (10_state.md R30). -/
theorem blockCounter_of_iv_eq {t : State} {c : Ctrl} {iv : Vector Word 4} {n : Nat}
    (hc : t.ctrl.ctr64 = c.ctr64) (hiv : t.iv = ivWithCounter c iv n) :
    blockCounter t = n % counterRange c := by
  unfold blockCounter counterRange
  rw [hc, hiv, ivWithCounter]
  cases c.ctr64 with
  | true =>
    rw [if_pos rfl, if_pos rfl, if_pos rfl, ← BitVec.toNat_ofNat, ← ofNat_append_ofNat]
    simp
  | false => simp

/-- Writing a counter over another leaves the later one. -/
theorem ivWithCounter_ivWithCounter (c : Ctrl) (iv : Vector Word 4) (a b : Nat) :
    ivWithCounter c (ivWithCounter c iv a) b = ivWithCounter c iv b := by
  unfold ivWithCounter
  split <;> (ext j hj; simp only [Vector.getElem_set]; split_ifs <;> rfl)

/-- An IV holds its own counter. -/
theorem ivWithCounter_blockCounter (s : State) : ivWithCounter s.ctrl s.iv (blockCounter s) = s.iv := by
  unfold ivWithCounter blockCounter
  cases s.ctrl.ctr64 with
  | true =>
    have hc : BitVec.ofNat 64 (s.iv[1] ++ s.iv[0]).toNat = s.iv[1] ++ s.iv[0] :=
      (BitVec.ofNat_toNat _ _).trans (BitVec.setWidth_eq _)
    rw [if_pos rfl, if_pos rfl, ← extractLsb'_low_ofNat, ← extractLsb'_high_ofNat, hc,
      BitVec.extractLsb'_append_eq_right, BitVec.extractLsb'_append_eq_left, Vector.set_getElem_self,
      Vector.set_getElem_self]
  | false => simp

/-- The counter advance adds 1 to the block counter in IV, sets WRAP at the last value, and changes
nothing else. -/
theorem counterAdvance_eq_update (s : State) :
    counterAdvance s =
      { s with
        iv := ivWithCounter s.ctrl s.iv (blockCounter s + 1)
        status := { s.status with
          wrap := s.status.wrap || decide (blockCounter s + 1 = counterRange s.ctrl) } } := by
  unfold counterAdvance ivWithCounter blockCounter counterRange
  cases s.ctrl.ctr64 with
  | true =>
    have hc : s.iv[1] ++ s.iv[0] + 1#64 = BitVec.ofNat 64 ((s.iv[1] ++ s.iv[0]).toNat + 1) :=
      add_one_eq_ofNat _
    simp only [if_true, eq_allOnes_iff, hc, extractLsb'_low_ofNat, extractLsb'_high_ofNat]
  | false =>
    simp only [Bool.false_eq_true, if_false, eq_allOnes_iff, add_one_eq_ofNat]

theorem counterAdvance_iv_eq (s : State) :
    (counterAdvance s).iv = ivWithCounter s.ctrl s.iv (blockCounter s + 1) :=
  congrArg State.iv (counterAdvance_eq_update s)

theorem counterAdvance_wrap_eq (s : State) :
    (counterAdvance s).status.wrap =
      (s.status.wrap || decide (blockCounter s + 1 = counterRange s.ctrl)) :=
  congrArg (fun t : State => t.status.wrap) (counterAdvance_eq_update s)

theorem blockCounter_counterAdvance (s : State) :
    blockCounter (counterAdvance s) = (blockCounter s + 1) % counterRange s.ctrl :=
  blockCounter_of_iv_eq (congrArg Ctrl.ctr64 (counterAdvance_ctrl s)) (counterAdvance_iv_eq s)

theorem counterAdvance_wrap_iff (s : State) :
    (counterAdvance s).status.wrap = true ↔
      s.status.wrap = true ∨ blockCounter s + 1 = counterRange s.ctrl := by
  simp [counterAdvance_wrap_eq]

/-- The words of IV that are not the 64-bit counter's keep their values. -/
theorem ivWithCounter_nonce (c : Ctrl) (iv : Vector Word 4) (n : Nat) :
    (ivWithCounter c iv n)[2] = iv[2] ∧ (ivWithCounter c iv n)[3] = iv[3] := by
  unfold ivWithCounter
  split <;> simp

/-- The 32-bit counter keeps IV1. -/
theorem ivWithCounter_iv1 {c : Ctrl} (hc : c.ctr64 = false) (iv : Vector Word 4) (n : Nat) :
    (ivWithCounter c iv n)[1] = iv[1] := by
  simp [ivWithCounter, hc]

/-! ### Writes of a register while BUSY = 0 (43_register_access.md R153) -/

/-- The state after a write that only BUSY could refuse. -/
theorem after_wr_of_not_busy {off : BitVec 8} {v : Word} {s t : State} (hb : s.status.busy = false)
    (hp : plainAccess .word off = true)
    (hw : writeReg (classOf off) v (answerNone s) = unlessBusy (answerNone s) (.next t)) :
    after (.wr .word off v) s = t := by
  have hexec : exec (.wr .word off v) s = .next t := by
    refine (execWr_plain _ _ _ _ hp).trans (hw.trans ?_)
    simp [unlessBusy, hb]
  rw [after, hexec]

theorem after_wr_iv {s : State} (hb : s.status.busy = false) (i : Fin 4) (v : Word) :
    after (.wr .word (BitVec.ofNat 8 (0x40 + 4 * i.val)) v) s = writeIv i v (answerNone s) :=
  after_wr_of_not_busy hb (plainAccess_iv i) (by rw [classOf_iv, writeReg])

theorem plainAccess_din (i : Fin 16) : plainAccess .word (BitVec.ofNat 8 (0x80 + 4 * i.val)) = true := by
  revert i; decide

theorem after_wr_din {s : State} (hb : s.status.busy = false) (i : Fin 16) (v : Word) :
    after (.wr .word (BitVec.ofNat 8 (0x80 + 4 * i.val)) v) s = writeDin i v (answerNone s) :=
  after_wr_of_not_busy hb (plainAccess_din i) (by rw [classOf_din, writeReg])

/-- After a wrap KS and XOR are refused with CTR_EXHAUSTED (41_keystream_commands.md R122, R124). -/
theorem exec_refused_of_wrap {len : BitVec 7} {s : State} (hb : s.status.busy = false)
    (hk : s.status.keymask = 0xFF#8) (hw : s.status.wrap = true) (h1 : 1 ≤ len.toNat)
    (h2 : len.toNat ≤ 64) :
    exec (.ks len) s = .next { s with resp := none, status := withError 5#3 s.status } ∧
    exec (.xor len) s = .next { s with resp := none, status := withError 5#3 s.status } := by
  have hcheck := checkKsXor_ctrExhausted h1 h2 hk hw
  exact ⟨exec_of_check_some (c := .ks len) hb hcheck, exec_of_check_some (c := .xor len) hb hcheck⟩

/-- Settles O31: the advance is `counterAdvance_eq_update`, and the IV write clears the WRAP that
refuses. -/
theorem counterAdvance_eq_rule : Obligations.CounterAdvance := by
  refine ⟨fun s => ⟨fun hc => ?_, fun hc => ?_, ?_⟩, fun len s => ?_, fun s => ⟨rfl, rfl, rfl⟩,
    fun len s t ht hb hk h1 h2 hw => ?_⟩
  · have hcount := blockCounter_counterAdvance s
    have hwrap := counterAdvance_wrap_iff s
    simp only [blockCounter, counterRange, counterAdvance_ctrl, hc, if_true] at hcount hwrap
    exact ⟨hcount, hwrap.trans (or_congr_right (by omega))⟩
  · have hcount := blockCounter_counterAdvance s
    have hwrap := counterAdvance_wrap_iff s
    simp only [blockCounter, counterRange, counterAdvance_ctrl, hc, Bool.false_eq_true, if_false]
      at hcount hwrap
    have hiv1 : (counterAdvance s).iv[1] = s.iv[1] := by
      simp only [counterAdvance_iv_eq, ivWithCounter_iv1 hc]
    exact ⟨hcount, hiv1, hwrap.trans (or_congr_right (by omega))⟩
  · obtain ⟨h2, h3⟩ := ivWithCounter_nonce s.ctrl s.iv (blockCounter s + 1)
    rw [counterAdvance_eq_update]
    exact ⟨h2, h3, rfl⟩
  · exact ⟨completeKs_iv s len, completeKs_wrap s len, completeXor_iv s len, completeXor_wrap s len⟩
  · have htb : t.status.busy = false := by simp [ht, hb]
    have htk : t.status.keymask = 0xFF#8 := by simp [ht, hk]
    obtain ⟨hks, hxor⟩ := exec_refused_of_wrap htb htk hw h1 h2
    refine ⟨hks, hxor, fun i v => ?_⟩
    rw [after_wr_iv htb]
    exact checkKsXor_passes h1 h2 htk rfl

/-! ### What KS and XOR leave (41_keystream_commands.md R125, R126) -/

/-- Byte `i` of the block, which KS puts out. -/
def ksByte (s : State) (i : Nat) : Byte := (block s.key s.iv).getD i 0#8

/-- Byte `i` of DIN xor the block, which XOR puts out. -/
def xorByte (s : State) (i : Nat) : Byte := fileByte s.din i ^^^ ksByte s i

/-- The state that a completed KS or XOR leaves: `d` in DOUT, the counter advanced, idle. -/
def keystreamDone (d : Vector Word 16) (s : State) : State :=
  { s with
    dout := d
    iv := ivWithCounter s.ctrl s.iv (blockCounter s + 1)
    x := Vector.replicate 16 0#32
    ks := Vector.replicate 64 0#8
    pend := none
    left := 0
    status := { s.status with
      busy := false
      done := true
      wrap := s.status.wrap || decide (blockCounter s + 1 = counterRange s.ctrl) } }

theorem complete_ks (len : BitVec 7) (s : State) :
    complete (.ks len) s = keystreamDone (keepBytes len (ksByte s)) s := by
  rw [complete, completeCmd, completeKs, counterAdvance_eq_update]
  rfl

theorem complete_xor (len : BitVec 7) (s : State) :
    complete (.xor len) s = keystreamDone (keepBytes len (xorByte s)) s := by
  rw [complete, completeCmd, completeXor, counterAdvance_eq_update]
  rfl

/-- A completion reads nothing that acceptance changed. -/
theorem complete_accept (c : Cmd) (s : State) : complete c (accept c s) = complete c s := by
  cases c with
  | nop | clrbuf | zeroize => rfl
  | ks len => rw [complete_ks, complete_ks]; rfl
  | xor len => rw [complete_xor, complete_xor]; rfl

/-- A command that is accepted leaves what its completion leaves (70_reset_and_hazards.md R205, R211). -/
theorem runCommand_of_check_none {c : Cmd} {s : State} (hs : idle s) (hc : cmdCheck c s.status = none) :
    runCommand c s = complete c (answerNone s) := by
  obtain ⟨hb, hr⟩ := hs
  rw [runCommand, after, exec_of_check_none hb hc, Config.latency,
    clocks_of_left_le _ (accept c (answerNone s)) hr rfl le_rfl, complete_accept]

section Ready

variable {len : BitVec 7} {s : State} (hs : keystreamReady s) (h1 : 1 ≤ len.toNat) (h2 : len.toNat ≤ 64)
include hs h1 h2

theorem checkKsXor_of_ready : checkKsXor len s.status = none := by
  obtain ⟨-, hk, hw⟩ := hs
  exact checkKsXor_passes h1 h2 hk hw

theorem exec_keystream_of_ready {c : Cmd} (hc : c = .ks len ∨ c = .xor len) :
    exec c.toInstr s = .next (accept c (answerNone s)) := by
  have hcheck := checkKsXor_of_ready hs h1 h2
  obtain ⟨⟨hb, -⟩, -, -⟩ := hs
  exact exec_of_check_none hb ((cmdCheck_keystream hc _).trans hcheck)

theorem runCommand_keystream_of_ready {c : Cmd} (hc : c = .ks len ∨ c = .xor len) :
    runCommand c s = complete c (answerNone s) := by
  have hcheck := checkKsXor_of_ready hs h1 h2
  obtain ⟨hi, -, -⟩ := hs
  exact runCommand_of_check_none hi ((cmdCheck_keystream hc _).trans hcheck)

theorem runCommand_ks :
    runCommand (.ks len) s = keystreamDone (keepBytes len (ksByte s)) (answerNone s) :=
  (runCommand_keystream_of_ready hs h1 h2 (.inl rfl)).trans (complete_ks len (answerNone s))

theorem runCommand_xor :
    runCommand (.xor len) s = keystreamDone (keepBytes len (xorByte s)) (answerNone s) :=
  (runCommand_keystream_of_ready hs h1 h2 (.inr rfl)).trans (complete_xor len (answerNone s))

end Ready

theorem blockCounter_keystreamDone (d : Vector Word 16) (s : State) :
    blockCounter (keystreamDone d s) = (blockCounter s + 1) % counterRange s.ctrl :=
  blockCounter_of_iv_eq rfl rfl

theorem keystreamDone_wrap_iff (d : Vector Word 16) {s : State} (hs : keystreamReady s) :
    (keystreamDone d s).status.wrap = true ↔ blockCounter s + 1 = counterRange s.ctrl := by
  obtain ⟨-, -, hw⟩ := hs
  simp [keystreamDone, hw]

/-- The bytes below LEN are kept, the others are zero. -/
theorem fileByte_keepBytes (len : BitVec 7) (f : Nat → Byte) {i : Nat} (hi : i < 64) :
    fileByte (keepBytes len f) i = if i < len.toNat then f i else 0#8 :=
  fileByte_fileOfBytes _ i hi

theorem ksByte_val (s : State) (i : Fin 64) : ksByte s i = (block s.key s.iv)[i] := by
  simp [ksByte, Vector.getD]

/-- The first four bytes of a file are those of word 0. -/
theorem fileByte_word0 (v : Vector Word 16) {k : Nat} (hk : k < 4) : fileByte v k = lane v[0] k := by
  simp [fileByte, Nat.div_eq_of_lt hk, Nat.mod_eq_of_lt hk, Vector.getD]

/-- With LEN = 64 word 0 is made of the first four bytes. -/
theorem keepBytes_64_word0 (f : Nat → Byte) : (keepBytes 64#7 f)[0] = le32 (f 0) (f 1) (f 2) (f 3) := rfl

/-- Settles O34: acceptance, then `runCommand_ks`; the example evaluates the block. -/
theorem ksRuns : Obligations.KsRuns := by
  refine ⟨fun len => encodeCmd_eq_or (.ks len),
    fun len s e hb he => exec_of_check_some (c := .ks len) hb he,
    fun len s hs h1 h2 => ⟨exec_keystream_of_ready hs h1 h2 (.inl rfl), _, rfl, ?_⟩,
    fun s hs hc hkey hiv => ?_⟩
  · rw [runCommand_ks hs h1 h2]
    refine ⟨fun i => ?_, (counterAdvance_iv_eq s).symm, blockCounter_keystreamDone _ _,
      keystreamDone_wrap_iff (s := answerNone s) _ hs, rfl⟩
    rw [← ksByte_val]
    exact fileByte_keepBytes len (ksByte s) i.isLt
  · rw [runCommand_ks hs (by decide) (by decide)]
    constructor
    · change (keepBytes 64#7 (ksByte s))[0] = _
      simp only [keepBytes_64_word0, ksByte, hkey, hiv]
      decide +kernel
    · simp [keystreamDone, ivWithCounter, blockCounter, hc, hiv]

/-- Settles O35: acceptance, then `runCommand_xor`; the example evaluates the block. -/
theorem xorRuns : Obligations.XorRuns := by
  refine ⟨fun len => encodeCmd_eq_or (.xor len),
    fun len s e hb he => exec_of_check_some (c := .xor len) hb he,
    fun len s hs h1 h2 => ⟨exec_keystream_of_ready hs h1 h2 (.inr rfl), _, rfl, ?_⟩,
    fun s hs hc hkey hiv hdin => ?_⟩
  · rw [runCommand_xor hs h1 h2]
    refine ⟨fun i => ?_, (counterAdvance_iv_eq s).symm, blockCounter_keystreamDone _ _,
      keystreamDone_wrap_iff (s := answerNone s) _ hs, rfl⟩
    rw [← ksByte_val]
    exact fileByte_keepBytes len (xorByte s) i.isLt
  · rw [runCommand_xor hs (by decide) (by decide)]
    constructor
    · change (keepBytes 64#7 (xorByte s))[0] = _
      simp only [keepBytes_64_word0, xorByte, ksByte, hkey, hiv, fileByte_word0, hdin, Nat.reduceLT]
      decide +kernel
    · simp [keystreamDone, ivWithCounter, blockCounter, hc, hiv]

/-! ### XOR on its own (41_keystream_commands.md R126, R128) -/

theorem xorByte_self_cancel {s t : State} (hkey : t.key = s.key) (hiv : t.iv = s.iv) {i : Nat}
    (h : fileByte t.din i = xorByte s i) : xorByte t i = fileByte s.din i := by
  rw [xorByte, h, xorByte, ksByte, ksByte, hkey, hiv, BitVec.xor_assoc, BitVec.xor_self, BitVec.xor_zero]

/-- Only the bytes below LEN are kept. -/
theorem keepBytes_congr {len : BitVec 7} {f g : Nat → Byte} (h : ∀ i < len.toNat, f i = g i) :
    keepBytes len f = keepBytes len g := by
  refine congrArg fileOfBytes (funext fun i => ?_)
  split
  next hi => exact h i hi
  next => rfl

theorem fileByte_replicate_zero (i : Nat) : fileByte (Vector.replicate 16 0#32) i = 0#8 := by
  have hword : (Vector.replicate 16 0#32).getD (i / 4) 0#32 = 0#32 := by
    rw [Vector.getD, Vector.toArray_replicate, Array.getD_eq_getD_getElem?, Array.getElem?_replicate]
    split <;> rfl
  rw [fileByte, hword, lane, BitVec.extractLsb'_zero]

/-- Settles O39: zeros leave the block's bytes as they are, and only the bytes below LEN are kept. -/
theorem xorCornerCases : Obligations.XorCornerCases := by
  refine fun len s hs h1 h2 => ⟨fun hdin => ?_, fun d hd => ?_⟩
  · have hbytes : ∀ i, xorByte s i = ksByte s i := fun i => by
      rw [xorByte, hdin, fileByte_replicate_zero, BitVec.zero_xor]
    rw [runCommand_xor hs h1 h2, runCommand_ks hs h1 h2, keepBytes_congr fun i _ => hbytes i]
  · have hs' : keystreamReady { s with din := d } := hs
    rw [runCommand_xor hs h1 h2, runCommand_xor hs' h1 h2]
    exact keepBytes_congr fun i hi => congrArg (· ^^^ ksByte s i) (hd i hi)

/-- Settles O40: the same byte of the block is xored twice. -/
theorem xorTwiceIsIdentity : Obligations.XorTwiceIsIdentity := by
  intro len s t hs ht h1 h2 hkey hiv hdin i hi
  have hi64 : i < 64 := by omega
  have hout (u : State) : fileByte (keepBytes len (xorByte u)) i = xorByte u i := by
    rw [fileByte_keepBytes len _ hi64, if_pos hi]
  rw [runCommand_xor hs h1 h2] at hdin
  rw [runCommand_xor ht h1 h2]
  refine (hout t).trans (xorByte_self_cancel hkey hiv ?_)
  rw [hdin]
  exact hout s

/-! ### Runs of KS and XOR (41_keystream_commands.md R129, R130) -/

/-- `t` is a state that `n` commands KS or XOR leave from the ready state `s`, as far as the next
command goes by it: the key and the mode are those of `s`, the counter is `n` ahead, and WRAP tells whether
it has used up its range. -/
structure Advanced (s : State) (n : Nat) (t : State) : Prop where
  idle : idle t
  ctrl : t.ctrl = s.ctrl
  key : t.key = s.key
  keymask : t.status.keymask = 0xFF#8
  iv : t.iv = ivWithCounter s.ctrl s.iv (blockCounter s + n)
  wrap : t.status.wrap = decide (blockCounter s + n = counterRange s.ctrl)

theorem advanced_zero {s : State} (hs : keystreamReady s) : Advanced s 0 s := by
  obtain ⟨hi, hk, hw⟩ := hs
  have hlt := blockCounter_lt s
  exact ⟨hi, rfl, rfl, hk, (ivWithCounter_blockCounter s).symm,
    hw.trans (decide_eq_false (by omega)).symm⟩

namespace Advanced

variable {s t : State} {n : Nat} (h : Advanced s n t)
include h

theorem blockCounter_eq : blockCounter t = (blockCounter s + n) % counterRange s.ctrl :=
  blockCounter_of_iv_eq (congrArg Ctrl.ctr64 h.ctrl) h.iv

theorem withDin (d : Vector Word 16) : Advanced s n { t with din := d } :=
  { h with }

theorem answerNone : Advanced s n (answerNone t) :=
  { h with }

variable (hlt : blockCounter s + n < counterRange s.ctrl)
include hlt

/-- Room for one more block is what the next command needs. -/
theorem ready : keystreamReady t :=
  ⟨h.idle, h.keymask, h.wrap.trans (decide_eq_false (by omega))⟩

/-- One more command is one more block. -/
theorem done (d : Vector Word 16) : Advanced s (n + 1) (keystreamDone d t) := by
  have hcount : blockCounter t = blockCounter s + n := by rw [h.blockCounter_eq, Nat.mod_eq_of_lt hlt]
  obtain ⟨-, -, hw⟩ := h.ready hlt
  obtain ⟨-, hr⟩ := h.idle
  refine ⟨⟨rfl, hr⟩, h.ctrl, h.key, h.keymask, ?_, ?_⟩
  · change ivWithCounter t.ctrl t.iv (blockCounter t + 1) = _
    rw [h.ctrl, h.iv, ivWithCounter_ivWithCounter, hcount, Nat.add_assoc]
  · change (t.status.wrap || decide (blockCounter t + 1 = counterRange t.ctrl)) = _
    rw [hw, h.ctrl, hcount, Nat.add_assoc, Bool.false_or]

variable {len : BitVec 7} (h1 : 1 ≤ len.toNat) (h2 : len.toNat ≤ 64)
include h1 h2

theorem ks : Advanced s (n + 1) (runCommand (.ks len) t) := by
  rw [runCommand_ks (h.ready hlt) h1 h2]
  exact h.answerNone.done hlt _

theorem xor : Advanced s (n + 1) (runCommand (.xor len) t) := by
  rw [runCommand_xor (h.ready hlt) h1 h2]
  exact h.answerNone.done hlt _

end Advanced

/-- `n` commands `ks 64` from a ready state, as far as the counter has room for them. -/
theorem advanced_iterate_ks {s : State} (hs : keystreamReady s) (n : Nat)
    (hn : blockCounter s + n ≤ counterRange s.ctrl) :
    Advanced s n ((runCommand (.ks 64#7))^[n] s) := by
  induction n with
  | zero => exact advanced_zero hs
  | succ n ih =>
    rw [Function.iterate_succ_apply']
    exact (ih (by omega)).ks hn (by decide) (by decide)

/-- Settles O32: the counter by `advanced_iterate_ks`, the refusal by `exec_refused_of_wrap`. -/
theorem counterExhaustion : Obligations.CounterExhaustion := by
  rintro s n hs h0 hn t rfl
  have h := advanced_iterate_ks hs n (by omega)
  have hcount := h.blockCounter_eq
  have hwrap := h.wrap
  rw [h0, Nat.zero_add] at hcount hwrap
  refine ⟨hcount, by rw [hwrap, decide_eq_true_iff], fun hlast len h1 h2 => ?_⟩
  obtain ⟨hb, -⟩ := h.idle
  exact exec_refused_of_wrap hb h.keymask (by rw [hwrap, decide_eq_true hlast]) h1 h2

/-- CLRBUF has no check. -/
theorem runCommand_clrbuf {s : State} (hs : idle s) :
    runCommand .clrbuf s = complete .clrbuf (answerNone s) :=
  runCommand_of_check_none hs rfl

/-- Settles O43: `ks 32` is one block of the run, and CLRBUF keeps what makes the block ready. -/
theorem aeadOneTimeKey : Obligations.AeadOneTimeKey := by
  rintro s t u hs h0 rfl rfl
  have hrange : 1 < counterRange s.ctrl := by unfold counterRange; split <;> decide
  have h := (advanced_zero hs).ks (len := 32#7) (by omega) (by decide) (by decide)
  obtain ⟨hi, hk, hw⟩ := h.ready (by omega)
  rw [runCommand_clrbuf hi]
  refine ⟨fun i => ?_, ?_, rfl, rfl, h.key, ⟨rfl, hi.2⟩, hk, hw⟩
  · rw [runCommand_ks hs (by decide) (by decide), ← ksByte_val]
    exact fileByte_keepBytes 32#7 (ksByte s) i.isLt
  · exact h.blockCounter_eq.trans (by rw [h0, Nat.mod_eq_of_lt (by omega)])

/-! ### Messages (41_keystream_commands.md R129) -/

/-- What a series of DIN writes changes while BUSY = 0: DIN (43_register_access.md R158). -/
theorem foldl_writeDin (f : Fin 16 → Word) (l : List (Fin 16)) {s : State} (hb : s.status.busy = false) :
    l.foldl (fun t i => after (.wr .word (BitVec.ofNat 8 (0x80 + 4 * i.val)) (f i)) t) s =
      { s with din := setEach f l s.din, resp := if l = [] then s.resp else none } := by
  induction l generalizing s with
  | nil => rfl
  | cons i l ih =>
    rw [List.foldl_cons, after_wr_din hb, ih (s := writeDin i (f i) (answerNone s)) hb]
    cases l <;> rfl

/-- The sixteen DIN writes of a block load it. -/
theorem writeBlock_eq (b : Vector Word 16) {s : State} (hb : s.status.busy = false) :
    writeBlock b s = answerNone { s with din := b } := by
  have hset : setEach (fun i : Fin 16 => b[i]) (List.finRange 16) s.din = b := by
    rw [setEach_finRange]
    exact Vector.ofFn_getElem
  rw [writeBlock, foldl_writeDin (fun i => b[i]) _ hb, hset]
  rfl

/-- Byte `i` of block `j` of a message (30_encoding.md R94). -/
theorem fileByte_messageBlock (m : List Byte) (j : Nat) {i : Nat} (hi : i < 64) :
    fileByte (messageBlock m j) i = m.getD (64 * j + i) 0#8 := by
  have hblock : messageBlock m j = fileOfBytes fun i => m.getD (64 * j + i) 0#8 := by
    refine congrArg tabulate16 (funext fun i => ?_)
    have hoff : 4 * (16 * j + i) = 64 * j + 4 * i := by omega
    simp only [wordOfBytes, hoff, Nat.add_assoc]
  rw [hblock, fileByte_fileOfBytes _ i hi]

theorem messageLen_toNat (m : List Byte) (j : Nat) :
    (messageLen m j).toNat = min 64 (m.length - 64 * j) := by
  rw [messageLen, BitVec.toNat_ofNat]
  omega

/-- Byte `p` of a message xor its byte of the keystream from the state's counter on
(41_keystream_commands.md R129). -/
def cipherByte (m : List Byte) (s : State) (p : Nat) : Byte :=
  m.getD p 0#8 ^^^
    (block s.key (ivWithCounter s.ctrl s.iv (blockCounter s + p / 64))).getD (p % 64) 0#8

section XorBlock

variable {m : List Byte} {s t : State} {j : Nat} (h : Advanced s j t)
  (hlt : blockCounter s + j < counterRange s.ctrl)
include h hlt

/-- Loading block `j` leaves the state ready for its XOR. -/
theorem advanced_xorBlock (hj : 64 * j < m.length) : Advanced s (j + 1) (xorBlock m j t) := by
  have hlen := messageLen_toNat m j
  rw [xorBlock, writeBlock_eq _ h.idle.1]
  exact (h.withDin _).answerNone.xor hlt (by omega) (by omega)

theorem fileByte_xorBlock {i : Nat} (hi : i < (messageLen m j).toNat) :
    fileByte (xorBlock m j t).dout i = cipherByte m s (64 * j + i) := by
  have hlen := messageLen_toNat m j
  have hi64 : i < 64 := by omega
  have hdiv : (64 * j + i) / 64 = j := by omega
  have hmod : (64 * j + i) % 64 = i := by omega
  have hready := (h.withDin (messageBlock m j)).answerNone.ready hlt
  rw [xorBlock, writeBlock_eq _ h.idle.1, runCommand_xor hready (by omega) (by omega)]
  refine (fileByte_keepBytes _ _ hi64).trans ?_
  rw [if_pos hi, xorByte, ksByte, cipherByte, hdiv, hmod, ← h.iv, ← h.key]
  exact congrArg (· ^^^ _) (fileByte_messageBlock m j hi64)

/-- The bytes that command `j` puts out are those of the message from byte `64j` on. -/
theorem map_fileByte_xorBlock :
    (List.range (messageLen m j).toNat).map (fileByte (xorBlock m j t).dout) =
      (List.range' (64 * j) (min 64 (m.length - 64 * j))).map (cipherByte m s) := by
  rw [List.range'_eq_map_range, List.map_map, ← messageLen_toNat]
  exact List.map_congr_left fun i hi => fileByte_xorBlock h hlt (List.mem_range.1 hi)

end XorBlock

/-- The rest of a message, cut after its next block. -/
theorem range'_message_cut (j l : Nat) :
    List.range' (64 * j) (min 64 (l - 64 * j)) ++ List.range' (64 * (j + 1)) (l - 64 * (j + 1)) =
      List.range' (64 * j) (l - 64 * j) := by
  by_cases hl : l ≤ 64 * (j + 1)
  · have hrest : l - 64 * (j + 1) = 0 := by omega
    have hmin : min 64 (l - 64 * j) = l - 64 * j := by omega
    rw [hrest, hmin, List.range'_zero, List.append_nil]
  · have hmin : min 64 (l - 64 * j) = 64 := by omega
    have hlen : l - 64 * j = 64 + (l - 64 * (j + 1)) := by omega
    rw [hmin, hlen, Nat.mul_succ, List.range'_append_1]

/-- The commands of a message from command `j` on put out its bytes from byte `64j` on. -/
theorem xorBlocks_eq {m : List Byte} {s : State}
    (hroom : blockCounter s + messageCommands m ≤ counterRange s.ctrl) (n : Nat) :
    ∀ {j : Nat} {t : State}, j + n = messageCommands m → Advanced s j t →
      (xorBlocks m n j t).1 =
        (List.range' (64 * j) (m.length - 64 * j)).map (cipherByte m s) ∧
      Advanced s (messageCommands m) (xorBlocks m n j t).2 := by
  induction n with
  | zero =>
    intro j t hj h
    have hrest : m.length - 64 * j = 0 := by unfold messageCommands at hj; omega
    rw [hrest]
    exact ⟨rfl, hj ▸ h⟩
  | succ n ih =>
    intro j t hj h
    have hlt : blockCounter s + j < counterRange s.ctrl := by omega
    have hbyte : 64 * j < m.length := by unfold messageCommands at hj; omega
    obtain ⟨hout, hlast⟩ := ih (by omega) (advanced_xorBlock h hlt hbyte)
    refine ⟨?_, hlast⟩
    rw [xorBlocks, hout, map_fileByte_xorBlock h hlt, ← List.map_append, range'_message_cut]

/-- What a message gives, and the state it leaves. -/
theorem xorMessage_eq {m : List Byte} {s : State} (hs : keystreamReady s)
    (hroom : blockCounter s + messageCommands m ≤ counterRange s.ctrl) :
    (xorMessage m s).1 = (List.range m.length).map (cipherByte m s) ∧
    Advanced s (messageCommands m) (xorMessage m s).2 := by
  have h := xorBlocks_eq hroom (messageCommands m) (Nat.zero_add _) (advanced_zero hs)
  rwa [Nat.mul_zero, Nat.sub_zero, ← List.range_eq_range'] at h

theorem getD_xorMessage {m : List Byte} {s : State} (hs : keystreamReady s)
    (hroom : blockCounter s + messageCommands m ≤ counterRange s.ctrl) {p : Nat} (hp : p < m.length) :
    (xorMessage m s).1.getD p 0#8 = cipherByte m s p := by
  rw [(xorMessage_eq hs hroom).1]
  simp [hp]

/-- Settles O41: `xorMessage_eq`, byte by byte. -/
theorem messageKeystream : Obligations.MessageKeystream := by
  intro m s hs hroom
  obtain ⟨hout, hlast⟩ := xorMessage_eq hs hroom
  exact ⟨by rw [hout, List.length_map, List.length_range],
    fun p hp => getD_xorMessage hs hroom hp, hlast.blockCounter_eq⟩

theorem blockCounter_congr {s t : State} (hc : t.ctrl.ctr64 = s.ctrl.ctr64) (hiv : t.iv = s.iv) :
    blockCounter t = blockCounter s := by
  unfold blockCounter
  rw [hc, hiv]

/-- The same key, IV and counter mode give the same keystream, so that a second xor with it cancels the
first. -/
theorem cipherByte_cancel {m m' : List Byte} {s t : State} (hkey : t.key = s.key) (hiv : t.iv = s.iv)
    (hc : t.ctrl.ctr64 = s.ctrl.ctr64) {p : Nat} (h : m'.getD p 0#8 = cipherByte m s p) :
    cipherByte m' t p = m.getD p 0#8 := by
  have hivc (n : Nat) : ivWithCounter t.ctrl s.iv n = ivWithCounter s.ctrl s.iv n := by
    unfold ivWithCounter
    rw [hc]
  rw [cipherByte, h, cipherByte, hkey, hiv, hivc, blockCounter_congr hc hiv, BitVec.xor_assoc,
    BitVec.xor_self, BitVec.xor_zero]

/-- Settles O42: both directions xor the same byte of the keystream (`cipherByte_cancel`). -/
theorem messageRoundTrip : Obligations.MessageRoundTrip := by
  intro m s t hs ht hkey hiv hc hroom
  have hlen : (xorMessage m s).1.length = m.length := by
    rw [(xorMessage_eq hs hroom).1, List.length_map, List.length_range]
  have hroom' : blockCounter t + messageCommands (xorMessage m s).1 ≤ counterRange t.ctrl := by
    rw [messageCommands, hlen, blockCounter_congr hc hiv, counterRange, hc]
    exact hroom
  rw [(xorMessage_eq ht hroom').1, hlen]
  refine List.ext_getElem (by simp) fun p _ hp => ?_
  rw [List.getElem_map, List.getElem_range, ← List.getD_eq_getElem m 0#8 hp]
  exact cipherByte_cancel hkey hiv hc (getD_xorMessage hs hroom hp)

/-! ### The writers of WRAP (41_keystream_commands.md R124) -/

/-- The descriptor of an IV write (30_encoding.md R84, 10_state.md R21). -/
theorem encodeDesc_iv (i : Fin 4) :
    encodeDesc true .word (BitVec.ofNat 8 (0x40 + 4 * i.val)) = BitVec.ofNat 11 (0x640 + 4 * i.val) := by
  revert i; decide

/-- A plain access to IVj is the word access at its offset. -/
theorem eq_of_classOf_iv {size : Size} {off : BitVec 8} {j : Fin 4} (hp : plainAccess size off = true)
    (hc : classOf off = .iv j) : size = .word ∧ off = BitVec.ofNat 8 (0x40 + 4 * j.val) := by
  have hoff := (registerMap off (.iv j) RegClass.noConfusion).1 hc
  cases hoff
  simp_all [plainAccess, legalAccess]

/-- Only an IV write changes WRAP, and it clears it. -/
theorem ExecEffect.wrap_cases {s t : State} {i : Instr} (h : ExecEffect s i t) :
    t.status.wrap = s.status.wrap ∨
    ∃ (j : Fin 4) (v : Word), s.status.busy = false ∧
      i = .wr .word (BitVec.ofNat 8 (0x40 + 4 * j.val)) v ∧ t.status.wrap = false := by
  cases h with
  | iv size off v j hp hc hb =>
    obtain ⟨rfl, rfl⟩ := eq_of_classOf_iv hp hc
    exact .inr ⟨j, v, hb, rfl, rfl⟩
  | readRefused | read | refused | status | ctrl | key | din | accepted => left; simp [clearW1C]

/-- A completed KS or XOR keeps WRAP, but sets it at the last counter value. -/
theorem keystreamDone_wrap_cases (d : Vector Word 16) (s : State) :
    (keystreamDone d s).status.wrap = s.status.wrap ∨
    ((keystreamDone d s).status.wrap = true ∧ blockCounter s + 1 = counterRange s.ctrl) := by
  by_cases hlast : blockCounter s + 1 = counterRange s.ctrl
  · exact .inr ⟨by simp [keystreamDone, hlast], hlast⟩
  · exact .inl (by simp [keystreamDone, hlast])

/-- A completion keeps WRAP, but KS's and XOR's set it at the last counter value, and ZEROIZE's clears
it. -/
theorem complete_wrap_cases (c : Cmd) (s : State) :
    (complete c s).status.wrap = s.status.wrap ∨
    ((complete c s).status.wrap = true ∧ blockCounter s + 1 = counterRange s.ctrl ∧
      ∃ len, c = .ks len ∨ c = .xor len) ∨
    ((complete c s).status.wrap = false ∧ c = .zeroize) := by
  cases c with
  | nop | clrbuf => exact .inl rfl
  | zeroize => exact .inr (.inr ⟨rfl, rfl⟩)
  | ks len =>
    rw [complete_ks]
    exact (keystreamDone_wrap_cases _ s).imp_right fun ⟨hw, hlast⟩ => .inl ⟨hw, hlast, len, .inl rfl⟩
  | xor len =>
    rw [complete_xor]
    exact (keystreamDone_wrap_cases _ s).imp_right fun ⟨hw, hlast⟩ => .inl ⟨hw, hlast, len, .inr rfl⟩

/-- What a step does to WRAP: a completing KS or XOR sets it at the last counter value, reset, ZEROIZE's
completion and an IV write clear it, and nothing else changes it. -/
theorem step_wrap_cases {s t : State} (h : step s = .next t) :
    t.status.wrap = s.status.wrap ∨
    (t.status.wrap = true ∧ nextInput s = .clock ∧ s.resetIn = false ∧ s.left ≤ 1 ∧
      blockCounter s + 1 = counterRange s.ctrl ∧
      ∃ len, s.pend = some (.ks len) ∨ s.pend = some (.xor len)) ∨
    (t.status.wrap = false ∧
      (nextInput s = .assertReset ∨ (nextInput s = .clock ∧ s.pend = some .zeroize) ∨
        ∃ (i : Fin 4) (v : Word), s.status.busy = false ∧
          nextInput s = .txn (BitVec.ofNat 11 (0x640 + 4 * i.val)) v)) := by
  cases step_effect h with
  | txn d v hn hr he =>
    rcases he.wrap_cases with hw | ⟨j, w, hb, hi, hw⟩
    · exact .inl hw
    · have hd := (eq_encodeDesc_of_decodeTxn_wr hi).trans (encodeDesc_iv j)
      exact .inr (.inr ⟨hw, .inr (.inr ⟨j, v, hb, hd ▸ hn⟩)⟩)
  | completes c hn hr hp hl =>
    rcases complete_wrap_cases c (takeInput s) with hw | ⟨hw, hlast, hc⟩ | ⟨hw, rfl⟩
    · exact .inl hw
    · refine .inr (.inl ⟨hw, hn, hr, hl, hlast, ?_⟩)
      obtain ⟨len, rfl | rfl⟩ := hc
      · exact ⟨len, .inl hp⟩
      · exact ⟨len, .inr hp⟩
    · exact .inr (.inr ⟨hw, .inr (.inl ⟨hn, hp⟩)⟩)
  | assertReset hn => exact .inr (.inr ⟨rfl, .inl hn⟩)
  | idle | counts | releaseReset | wait => exact .inl rfl

/-- Settles O50: a step that sets WRAP or clears it is one of those of `step_wrap_cases`. -/
theorem wrapWriters : Obligations.WrapWriters := by
  refine ⟨fun s t hstep h0 h1 => ?_, fun s t hstep h1 h0 => ?_⟩
  · rcases step_wrap_cases hstep with hw | ⟨-, hset⟩ | ⟨hw, -⟩
    · exact absurd (hw.symm.trans h1) (by simp [h0])
    · exact hset
    · exact absurd (hw.symm.trans h1) Bool.false_ne_true
  · rcases step_wrap_cases hstep with hw | ⟨hw, -⟩ | ⟨-, hcleared⟩
    · exact absurd (hw.symm.trans h0) (by simp [h1])
    · exact absurd (h0.symm.trans hw) Bool.false_ne_true
    · exact hcleared

end Sys2Proof.Machine
end

