-- ==== Sys2Proof/Proofs/ControlCommands.lean ====
section
/-! PROOF. The control commands (42_control_commands.md): words with their OP, acceptance and completion,
and what ZEROIZE leaves for KS and XOR. -/

namespace Sys2Proof.Machine

/-! ### What the three commands share -/

section Control

variable {c : Cmd} (hc : c = .nop ∨ c = .clrbuf ∨ c = .zeroize) {s : State}
include hc

/-- No other command has the OP of a control command (30_encoding.md R81). -/
theorem eq_of_cmdOp_eq_control {c' : Cmd} (h : cmdOp c' = cmdOp c) : c' = c := by
  rcases hc with rfl | rfl | rfl <;> cases c' <;> simp_all [cmdOp]

/-- The control commands have no check (42_control_commands.md R140 to R142). -/
theorem cmdCheck_control (st : Status) : cmdCheck c st = none := by
  rcases hc with rfl | rfl | rfl <;> rfl

theorem exec_control (hb : s.status.busy = false) :
    exec c.toInstr s = .next (accept c (answerNone s)) :=
  exec_of_check_none hb (cmdCheck_control hc _)

theorem runCommand_control (hs : idle s) : runCommand c s = complete c (answerNone s) :=
  runCommand_of_check_none hs (cmdCheck_control hc _)

/-- Of the words with the OP of a control command all but its own are illegal (30_encoding.md R86): a
word that decodes to a command has that command's OP. -/
theorem exec_wr_cmd_of_control_op {w : Word} (hb : s.status.busy = false)
    (hop : w.toNat % 16 = (cmdOp c).toNat) (hne : w ≠ encodeCmd c) :
    exec (.wr .word 0x08#8 w) s = .next { s with resp := none, status := withError 2#3 s.status } := by
  cases hd : decodeCmd w with
  | reject r =>
    refine (exec_wr_cmd_of_reject hd hb).trans ?_
    rw [record_eq]
    rfl
  | ok c' =>
    obtain ⟨-, -, hop', -⟩ := (decodeCmd_eq_ok_iff w c').1 hd
    have hcc : c' = c := eq_of_cmdOp_eq_control hc
      (hop'.symm.trans (BitVec.eq_of_toNat_eq ((opField_toNat w).trans hop)))
    exact absurd ((decodeCmd_eq_ok_iff_encodeCmd w c').1 hd).symm (hcc ▸ hne)

end Control

/-! ### NOP and CLRBUF -/

/-- Settles O36: no check, and no effect but that of every completion. -/
theorem nopRuns : Obligations.NopRuns := by
  refine ⟨encodeCmd_eq_or .nop, fun s hs => ?_,
    fun s w => exec_wr_cmd_of_control_op (c := .nop) (.inl rfl), ?_⟩
  · have ⟨hb, _⟩ := hs
    exact ⟨exec_control (.inl rfl) hb, runCommand_control (.inl rfl) hs⟩
  · rw [runCommand_control (.inl rfl) ⟨rfl, rfl⟩]
    rfl

/-- Settles O37: no check, and the completion clears DIN and DOUT. -/
theorem clrbufRuns : Obligations.ClrbufRuns := by
  refine ⟨encodeCmd_eq_or .clrbuf, fun s hs => ?_,
    fun s w => exec_wr_cmd_of_control_op (c := .clrbuf) (.inr (.inl rfl))⟩
  have ⟨hb, _⟩ := hs
  exact ⟨exec_control (.inr (.inl rfl)) hb, runCommand_clrbuf hs⟩

/-! ### KEY writes (43_register_access.md R156) -/

theorem after_wr_key {s : State} (hb : s.status.busy = false) (i : Fin 8) (v : Word) :
    after (.wr .word (BitVec.ofNat 8 (0x20 + 4 * i.val)) v) s = writeKey i v (answerNone s) :=
  after_wr_of_not_busy hb (plainAccess_key i) (by rw [classOf_key, writeReg])

/-- KEYMASK after the KEY registers `l`, in order, are written. -/
def keymaskAfter (l : List (Fin 8)) (m : BitVec 8) : BitVec 8 :=
  l.foldl (fun m i => m ||| BitVec.twoPow 8 i.val) m

theorem getLsbD_keymaskAfter (l : List (Fin 8)) (m : BitVec 8) (j : Fin 8) :
    (keymaskAfter l m).getLsbD j.val = (m.getLsbD j.val || decide (j ∈ l)) := by
  induction l generalizing m with
  | nil => simp [keymaskAfter]
  | cons i l ih =>
    rw [keymaskAfter, List.foldl_cons, ← keymaskAfter, ih, getLsbD_or_twoPow, Bool.or_assoc]
    simp [eq_comm]

/-- From an empty KEYMASK the key is whole exactly if every KEY register is written
(10_state.md R28). -/
theorem keymaskAfter_zero_eq_ones_iff (l : List (Fin 8)) :
    keymaskAfter l 0#8 = 0xFF#8 ↔ ∀ j : Fin 8, j ∈ l := by
  have hones : ∀ j : Fin 8, (0xFF#8).getLsbD j.val = true := by decide
  have hbit : ∀ j : Fin 8, (keymaskAfter l 0#8).getLsbD j.val = decide (j ∈ l) := fun j => by
    rw [getLsbD_keymaskAfter, BitVec.getLsbD_zero, Bool.false_or]
  constructor
  · intro h j
    rw [← decide_eq_true_iff (p := j ∈ l), ← hbit, h, hones]
  · intro h
    apply BitVec.eq_of_getLsbD_eq
    intro i hi
    rw [hbit ⟨i, hi⟩, hones ⟨i, hi⟩, decide_eq_true (h _)]

/-- What a series of KEY writes changes while BUSY = 0: KEY and KEYMASK. -/
theorem foldl_wr_key (l : List (Fin 8 × Word)) {s : State} (hb : s.status.busy = false) :
    l.foldl (fun t p => after (.wr .word (BitVec.ofNat 8 (0x20 + 4 * p.1.val)) p.2) t) s =
      { s with
        key := l.foldl (fun k p => k.set p.1 p.2) s.key
        status := { s.status with keymask := keymaskAfter (l.map Prod.fst) s.status.keymask }
        resp := if l = [] then s.resp else none } := by
  induction l generalizing s with
  | nil => rfl
  | cons p l ih =>
    rw [List.foldl_cons, after_wr_key hb, ih (s := writeKey p.1 p.2 (answerNone s)) hb]
    cases l <;> rfl

/-! ### ZEROIZE -/

/-- KS and XOR are refused with NO_KEY while the key is not whole (41_keystream_commands.md R122). -/
theorem exec_refused_of_keymask {len : BitVec 7} {s : State} (hb : s.status.busy = false)
    (hk : s.status.keymask ≠ 0xFF#8) (h1 : 1 ≤ len.toNat) (h2 : len.toNat ≤ 64) :
    exec (.ks len) s = .next { s with resp := none, status := withError 4#3 s.status } ∧
    exec (.xor len) s = .next { s with resp := none, status := withError 4#3 s.status } := by
  have hcheck := checkKsXor_noKey h1 h2 hk
  exact ⟨exec_of_check_some (c := .ks len) hb hcheck, exec_of_check_some (c := .xor len) hb hcheck⟩

/-- While a command is in flight every command is refused with BUSY (43_register_access.md R152). -/
theorem exec_command_of_busy (c : Cmd) {s : State} (hb : s.status.busy = true) :
    exec c.toInstr s = .next { s with resp := none, status := withError 1#3 s.status } := by
  rw [exec_toInstr, issue_of_busy (s := answerNone s) hb, record_eq]
  rfl

/-- Settles O38: no check, and the completion clears KEYMASK and WRAP, so that KS and XOR wait for the
whole key (`keymaskAfter_zero_eq_ones_iff`). -/
theorem zeroizeRuns : Obligations.ZeroizeRuns := by
  refine ⟨encodeCmd_eq_or .zeroize, fun s hs => ?_, fun s => exec_command_of_busy .zeroize,
    fun s w => exec_wr_cmd_of_control_op (c := .zeroize) (.inr (.inr rfl))⟩
  have ⟨hb, hr⟩ := hs
  rw [runCommand_control (.inr (.inr rfl)) hs]
  refine ⟨exec_control (.inr (.inr rfl)) hb, rfl, fun hv hcode hovf => ?_, fun l t len ht h1 h2 => ?_⟩
  · change statusWord { s.status with busy := false, done := true, keymask := 0#8, wrap := false } = _
    simp only [statusWord, hv, hcode, hovf]
    rfl
  · rw [foldl_wr_key l rfl] at ht
    subst ht
    refine ⟨fun ⟨j, hj⟩ => exec_refused_of_keymask rfl (fun hk => ?_) h1 h2, fun h => ?_⟩
    · exact hj ((keymaskAfter_zero_eq_ones_iff _).1 hk j)
    · exact ⟨⟨rfl, hr⟩, (keymaskAfter_zero_eq_ones_iff _).2 h, rfl⟩

end Sys2Proof.Machine
end

