-- ==== Sys2Proof/Proofs/RegisterAccess.lean ====
section
/-! PROOF. Register access (43_register_access.md): what a read of each register returns, what a write of
each register does, idle and while a command is in flight, and that a command in flight keeps its operands. -/

namespace Sys2Proof.Machine

/-! ### The words of CTRL and STATUS as numbers (10_state.md R23, R24) -/

/-- The value of two fields side by side. -/
theorem toNat_append_eq_add {m n : Nat} (x : BitVec m) (y : BitVec n) :
    (x ++ y).toNat = x.toNat * 2 ^ n + y.toNat := by
  rw [BitVec.toNat_append, ← Nat.shiftLeft_add_eq_or_of_lt y.isLt, Nat.shiftLeft_eq]

theorem ctrlWord_eq_ofNat (c : Ctrl) :
    ctrlWord c = BitVec.ofNat 32 (c.ctr64.toNat + 2 * c.doneIe.toNat + 4 * c.errIe.toNat) := by
  obtain ⟨c0, c1, c2⟩ := c
  cases c0 <;> cases c1 <;> cases c2 <;> rfl

theorem statusWord_eq_ofNat (st : Status) :
    statusWord st = BitVec.ofNat 32 (st.busy.toNat + 2 * st.done.toNat + 4 * st.errv.toNat
      + 8 * st.errovf.toNat + 16 * st.errcode.toNat + 256 * (decide (st.keymask = 0xFF#8)).toNat
      + 512 * st.wrap.toNat + 65536 * st.keymask.toNat) := by
  have hbit : ∀ b : Bool, b.toNat < 2 := Bool.toNat_lt
  have hbusy := hbit st.busy
  have hdone := hbit st.done
  have herrv := hbit st.errv
  have herrovf := hbit st.errovf
  have hkeyv := hbit (keyv st)
  have hwrap := hbit st.wrap
  have hcode := st.errcode.isLt
  have hmask := st.keymask.isLt
  apply BitVec.eq_of_toNat_eq
  rw [← keyv, BitVec.toNat_ofNat, Nat.mod_eq_of_lt (by omega)]
  simp only [statusWord, toNat_append_eq_add, BitVec.toNat_ofBool, BitVec.toNat_ofNat]
  omega

/-- CTRL reads back bits [2:0] of what was written (43_register_access.md R154). -/
theorem ctrlWord_ctrlOfWord (v : Word) : ctrlWord (ctrlOfWord v) = v &&& 7#32 := by
  apply BitVec.eq_of_getLsbD_eq
  intro i hi
  rw [getLsbD_ctrlWord, BitVec.getLsbD_and]
  interval_cases i <;> simp [ctrlOfWord]

/-! ### Reads (43_register_access.md R150) -/

/-- A read of a register answers its word and changes nothing else. -/
theorem exec_rd_of_classOf {off : BitVec 8} {c : RegClass} (hp : plainAccess .word off = true)
    (hc : classOf off = c) (hne : c ≠ .reserved) (s : State) :
    exec (.rd .word off) s = .next (answer (readReg c s) s) := by
  subst hc
  exact exec_rd_of_allowed ((accessApplies_rd _ _).2 ⟨hp, hne⟩) s

theorem plainAccess_dout (i : Fin 16) : plainAccess .word (BitVec.ofNat 8 (0xC0 + 4 * i.val)) = true := by
  revert i; decide

theorem exec_rd_key (i : Fin 8) (s : State) :
    exec (.rd .word (BitVec.ofNat 8 (0x20 + 4 * i.val))) s = .next { s with resp := some 0#32 } :=
  exec_rd_of_classOf (plainAccess_key i) (classOf_key i) RegClass.noConfusion s

theorem exec_rd_iv (i : Fin 4) (s : State) :
    exec (.rd .word (BitVec.ofNat 8 (0x40 + 4 * i.val))) s = .next { s with resp := some s.iv[i] } :=
  exec_rd_of_classOf (plainAccess_iv i) (classOf_iv i) RegClass.noConfusion s

theorem exec_rd_din (i : Fin 16) (s : State) :
    exec (.rd .word (BitVec.ofNat 8 (0x80 + 4 * i.val))) s = .next { s with resp := some s.din[i] } :=
  exec_rd_of_classOf (plainAccess_din i) (classOf_din i) RegClass.noConfusion s

theorem exec_rd_dout (i : Fin 16) (s : State) :
    exec (.rd .word (BitVec.ofNat 8 (0xC0 + 4 * i.val))) s =
      .next { s with resp := some (if s.status.busy then 0#32 else s.dout[i]) } :=
  exec_rd_of_classOf (plainAccess_dout i) (classOf_dout i) RegClass.noConfusion s

theorem exec_rd_ctrl (s : State) :
    exec (.rd .word 0x00#8) s = .next { s with resp := some (ctrlWord s.ctrl) } := rfl

theorem exec_rd_status (s : State) :
    exec (.rd .word 0x04#8) s = .next { s with resp := some (statusWord s.status) } := rfl

/-- The descriptor of a word read (30_encoding.md R84). -/
theorem encodeDesc_rd_word (off : BitVec 8) : encodeDesc false .word off = 0x200#11 ||| off.setWidth 11 := by
  revert off; decide

/-- Settles O14: a read is refused (`exec_rd_of_refused`) or answers its register, CTRL and STATUS by
`ctrlWord_eq_ofNat` and `statusWord_eq_ofNat`. -/
theorem readRegister : Obligations.ReadRegister := by
  refine ⟨fun off v => ?_, fun s => ⟨fun size off h => ?_, ?_, ?_, rfl, rfl, fun i => exec_rd_key i s,
    fun i => exec_rd_iv i s, fun i => exec_rd_din i s, fun i => exec_rd_dout i s⟩⟩
  · rw [← encodeDesc_rd_word]
    exact decodeTxn_encodeDesc false .word off v
  · have hrefused : accessApplies (.rd size off) = true := by
      simpa [accessApplies, readRefused, or_assoc] using h
    rw [exec_rd_of_refused hrefused, record_eq]
    rfl
  · rw [exec_rd_ctrl, ctrlWord_eq_ofNat]
  · rw [exec_rd_status, statusWord_eq_ofNat]

/-- Settles O15: a read of DOUT is `exec_rd_dout`, and no issue changes DOUT or IV (`issueFrame`). -/
theorem doutReadsZeroWhileBusy : Obligations.DoutReadsZeroWhileBusy := by
  refine fun s hb => ⟨fun i => ?_, fun i => exec_rd_iv i s, fun i => exec_rd_din i s, exec_rd_ctrl s,
    exec_rd_status s, fun c i => ⟨?_, exec_rd_dout i (complete .nop s)⟩, fun c t _ h => ?_⟩
  · rw [exec_rd_dout, if_pos hb]
  · rw [after, exec_command_of_busy c hb]
  · obtain ⟨-, -, hiv, -, hdout, -⟩ := issueFrame c t s h
    exact ⟨hdout, hiv⟩

/-! ### Writes while BUSY = 1 (43_register_access.md R152) -/

/-- A write of this register records ACCESS, busy or not (60_exceptions.md R170). -/
def RegClass.readOnly : RegClass → Bool
  | .id | .dout _ | .reserved => true
  | .ctrl | .status | .cmd | .key _ | .iv _ | .din _ => false

/-- The offsets whose write records ACCESS are those of the read-only registers and of none
(10_state.md R21, 60_exceptions.md R170). -/
theorem readOnly_classOf (off : BitVec 8) : (classOf off).readOnly = writeRefused off.toNat := by
  by_cases hres : classOf off = .reserved
  · rw [hres, writeRefused, (classOf_eq_reserved_iff off).1 hres]
    rfl
  · have hoff := offsetOf_classOf hres
    generalize classOf off = c at hoff
    cases c with
    | key j | iv j | din j | dout j =>
      cases hoff
      revert j
      decide
    | ctrl | status | cmd | id | reserved => cases hoff <;> rfl

theorem readOnly_classOf_iff (off : BitVec 8) :
    (classOf off).readOnly = true ↔
      off.toNat % 4 ≠ 0 ∨ (0x10 ≤ off.toNat ∧ off.toNat < 0x20) ∨
        (0x50 ≤ off.toNat ∧ off.toNat < 0x80) ∨ off.toNat = 0x0C ∨ 0xC0 ≤ off.toNat := by
  simp [readOnly_classOf, writeRefused, readRefused, or_assoc]

/-- ACCESS comes before BUSY (60_exceptions.md R173). -/
theorem writeReg_of_readOnly {c : RegClass} (h : c.readOnly = true) (v : Word) (s : State) :
    writeReg c v s = .next (record .access s) := by
  cases c with
  | id | dout | reserved => rfl
  | ctrl | status | cmd | key | iv | din => cases h

/-- While BUSY = 1 a write of a writable register other than STATUS is dropped and records BUSY. -/
theorem writeReg_of_busy {c : RegClass} (h : c.readOnly = false) (hne : c ≠ .status) {s : State}
    (hb : s.status.busy = true) (v : Word) : writeReg c v s = .next (record .busy s) := by
  cases c with
  | ctrl | cmd | key | iv | din => simp [writeReg, unlessBusy, hb]
  | status => exact absurd rfl hne
  | id | dout | reserved => cases h

/-- Settles O19: the offset says whether the register is read-only (`readOnly_classOf_iff`), and so whether
the write is refused with ACCESS (`writeReg_of_readOnly`) or with BUSY (`writeReg_of_busy`). -/
theorem writeWhileBusy : Obligations.WriteWhileBusy := by
  intro s v hb
  have hexec {off : BitVec 8} (halign : off.toNat % 4 = 0) :
      exec (.wr .word off v) s = writeReg (classOf off) v (answerNone s) :=
    execWr_plain .word off v s (by simp [plainAccess, legalAccess, halign])
  refine ⟨fun off halign hoff => ?_, rfl, fun off halign hoff => ?_⟩
  · have hwritable : (classOf off).readOnly = false := by
      rw [Bool.eq_false_iff, ne_eq, readOnly_classOf_iff]
      omega
    have hstatus : classOf off ≠ .status := fun hc => by
      have h4 := toNat_of_classOf (n := 0x04) hc rfl (by omega)
      omega
    rw [hexec halign, writeReg_of_busy hwritable hstatus (s := answerNone s) hb, record_eq]
    rfl
  · have hreadOnly : (classOf off).readOnly = true := (readOnly_classOf_iff off).2 (by omega)
    rw [hexec halign, writeReg_of_readOnly hreadOnly, record_eq]
    rfl

/-! ### Writes while BUSY = 0 (43_register_access.md R153) -/

/-- A write that only BUSY could refuse happens. -/
theorem exec_wr_of_not_busy {off : BitVec 8} {v : Word} {s t : State} (hb : s.status.busy = false)
    (hp : plainAccess .word off = true)
    (hw : writeReg (classOf off) v (answerNone s) = unlessBusy (answerNone s) (.next t)) :
    exec (.wr .word off v) s = .next t := by
  refine (execWr_plain _ _ _ _ hp).trans (hw.trans ?_)
  simp [unlessBusy, hb]

theorem exec_wr_ctrl {s : State} (hb : s.status.busy = false) (v : Word) :
    exec (.wr .word 0x00#8 v) s = .next (writeCtrl v (answerNone s)) :=
  exec_wr_of_not_busy hb rfl rfl

theorem exec_wr_key {s : State} (hb : s.status.busy = false) (i : Fin 8) (v : Word) :
    exec (.wr .word (BitVec.ofNat 8 (0x20 + 4 * i.val)) v) s = .next (writeKey i v (answerNone s)) :=
  exec_wr_of_not_busy hb (plainAccess_key i) (by rw [classOf_key, writeReg])

theorem exec_wr_iv {s : State} (hb : s.status.busy = false) (i : Fin 4) (v : Word) :
    exec (.wr .word (BitVec.ofNat 8 (0x40 + 4 * i.val)) v) s = .next (writeIv i v (answerNone s)) :=
  exec_wr_of_not_busy hb (plainAccess_iv i) (by rw [classOf_iv, writeReg])

theorem exec_wr_din {s : State} (hb : s.status.busy = false) (i : Fin 16) (v : Word) :
    exec (.wr .word (BitVec.ofNat 8 (0x80 + 4 * i.val)) v) s = .next (writeDin i v (answerNone s)) :=
  exec_wr_of_not_busy hb (plainAccess_din i) (by rw [classOf_din, writeReg])

/-- The 64-bit counter carries into IV1 out of a full IV0 (41_keystream_commands.md R124). -/
theorem counterAdvance_carry {s : State} (hc : s.ctrl.ctr64 = true) (h0 : s.iv[0] = 0xFFFFFFFF#32) :
    (counterAdvance s).iv[1] = s.iv[1] + 1#32 := by
  have hcount : (blockCounter s + 1) / 2 ^ 32 = s.iv[1].toNat + 1 := by
    rw [blockCounter, if_pos hc, toNat_append_eq_add, h0]
    simp only [BitVec.toNat_ofNat]
    omega
  simp only [counterAdvance_iv_eq, ivWithCounter, hc, if_true, hcount, Vector.getElem_set_self,
    add_one_eq_ofNat]

/-- The 32-bit counter never carries into IV1 (41_keystream_commands.md R124). -/
theorem counterAdvance_no_carry {s : State} (hc : s.ctrl.ctr64 = false) :
    (counterAdvance s).iv[1] = s.iv[1] := by
  simp only [counterAdvance_iv_eq, ivWithCounter_iv1 hc]

/-- Settles O20: the write is `exec_wr_ctrl`; the next advance goes by the new CTR64
(`counterAdvance_carry`, `counterAdvance_no_carry`). -/
theorem writeCtrl_eq_rule : Obligations.WriteCtrl := by
  refine ⟨fun s v hb => ⟨_, exec_wr_ctrl hb v, rfl, rfl, fun hv h0 => ?_, fun hv => ?_, ?_⟩,
    fun s hb => exec_wr_ctrl hb _⟩
  · exact counterAdvance_carry (s := writeCtrl v (answerNone s)) hv h0
  · exact counterAdvance_no_carry (s := writeCtrl v (answerNone s)) hv
  · rw [exec_rd_ctrl, writeCtrl_ctrl, ctrlWord_ctrlOfWord]

/-- An acknowledged error leaves ERRV and ERRCODE at 0 and every other bit of STATUS as it was
(43_register_access.md R155). -/
theorem statusWord_clearW1C_errv (st : Status) :
    statusWord (clearW1C 0x00000004#32 st) = statusWord st &&& 0xFFFFFF8B#32 := by
  apply BitVec.eq_of_getLsbD_eq
  intro i hi
  rw [BitVec.getLsbD_and, getLsbD_statusWord, getLsbD_statusWord]
  interval_cases i <;> simp [clearW1C, keyv]

/-- Settles O21: the write is `clearW1C` of STATUS; the example is `statusWord_clearW1C_errv`. -/
theorem writeStatus_eq_rule : Obligations.WriteStatus := by
  refine ⟨fun s v => ⟨writeStatus v (answerNone s), rfl, rfl, ?_⟩, fun s hs => ?_⟩
  · simp +contextual [clearW1C, keyv]
  · change statusWord (clearW1C 0x00000004#32 s.status) = _
    rw [statusWord_clearW1C_errv, hs]
    rfl

/-- The key is whole exactly if every bit of KEYMASK is set (10_state.md R25). -/
theorem eq_ones_iff_getLsbD (m : BitVec 8) : m = 0xFF#8 ↔ ∀ j : Fin 8, m.getLsbD j.val = true := by
  revert m; decide

/-- Settles O22: the bits of KEYMASK are `getLsbD_or_twoPow` for one write and `getLsbD_keymaskAfter` for
a series. -/
theorem writeKey_eq_rule : Obligations.WriteKey := by
  refine ⟨fun s i v hb => ⟨_, exec_wr_key hb i v, rfl, fun j => ?_, ?_⟩, fun l s hb j => ?_,
    fun f => ?_⟩
  · rw [writeKey_status, getLsbD_or_twoPow, Bool.or_comm]
    simp [eq_comm]
  · rw [keyv, decide_eq_true_iff, writeKey_status, eq_ones_iff_getLsbD]
    simp only [getLsbD_or_twoPow, answerNone_status, Bool.or_eq_true, decide_eq_true_iff]
    exact forall_congr' fun j => by rw [or_comm, or_iff_not_imp_left, eq_comm]
  · rw [foldl_wr_key l hb, getLsbD_keymaskAfter]
    congr 1
    rw [Bool.eq_iff_iff]
    simp
  · have hmem : ∀ j, j ∈ ((List.finRange 8).map fun i => (i, f i)).map Prod.fst := by simp
    have hseries := foldl_wr_key ((List.finRange 8).map fun i => (i, f i)) (s := State.reset) rfl
    rw [List.foldl_map] at hseries
    rw [hseries]
    change statusWord { Status.reset with keymask := keymaskAfter _ 0#8 } = _
    rw [(keymaskAfter_zero_eq_ones_iff _).2 hmem]
    rfl

/-- Settles O23: the write is `exec_wr_iv`, the read-back `exec_rd_iv`, and with WRAP cleared every check
of KS passes. -/
theorem writeIv_eq_rule : Obligations.WriteIv := by
  refine fun s i v hb => ⟨_, exec_wr_iv hb i v, rfl, ?_, fun len hk h1 h2 => ?_⟩
  · rw [exec_rd_iv]
    simp
  · exact exec_of_check_none (c := .ks len) (s := writeIv i v (answerNone s)) hb
      (checkKsXor_passes h1 h2 hk rfl)

/-- Settles O24: the write is `exec_wr_din`, the read-back `exec_rd_din`. -/
theorem writeDin_eq_rule : Obligations.WriteDin := by
  refine fun s i v hb => ⟨exec_wr_din hb i v, ?_⟩
  rw [exec_rd_din]
  simp

/-! ### A command in flight (43_register_access.md R152, 70_reset_and_hazards.md R205) -/

/-- The command in flight, its operands and DOUT are the same in both states. -/
def SameInFlight (s t : State) : Prop :=
  t.pend = s.pend ∧ t.status.busy = s.status.busy ∧ t.key = s.key ∧ t.iv = s.iv ∧ t.din = s.din ∧
    t.ctrl = s.ctrl ∧ t.dout = s.dout ∧ t.status.keymask = s.status.keymask ∧
    t.status.wrap = s.status.wrap

/-- While BUSY = 1 an instruction can only read, record an error or write STATUS. -/
theorem ExecEffect.sameInFlight {s t : State} {i : Instr} (h : ExecEffect s i t)
    (hb : s.status.busy = true) : SameInFlight s t := by
  cases h with
  | readRefused | read | refused | status => simp [SameInFlight, clearW1C]
  | ctrl _ _ _ _ _ hfree | key _ _ _ _ _ _ hfree | iv _ _ _ _ _ _ hfree | din _ _ _ _ _ _ hfree
  | accepted _ _ _ hfree => exact absurd hb (by simp [hfree])

/-- What a step can do with a command in flight: reset discards it, the last clock cycle completes it, and
every other step keeps it. -/
theorem step_inFlight {s t : State} {c : Cmd} (h : step s = .next t) (hb : s.status.busy = true)
    (hp : s.pend = some c) :
    nextInput s = .assertReset ∨
    (nextInput s = .clock ∧ s.resetIn = false ∧ s.left ≤ 1 ∧ t = complete c (takeInput s)) ∨
    SameInFlight s t := by
  cases step_effect h with
  | txn d v hn hr he => exact .inr (.inr (he.sameInFlight hb))
  | completes c' hn hr hp' hl =>
    obtain rfl : c = c' := Option.some.inj (hp.symm.trans hp')
    exact .inr (.inl ⟨hn, hr, hl, rfl⟩)
  | assertReset hn => exact .inl hn
  | idle | counts | releaseReset | wait => exact .inr (.inr ⟨rfl, rfl, rfl, rfl, rfl, rfl, rfl, rfl, rfl⟩)

/-- Settles O47: `step_inFlight`, with BUSY and PEND as they are in `s`. -/
theorem busyFreezesOperands : Obligations.BusyFreezesOperands := by
  intro s t c hb hp hstep
  rcases step_inFlight hstep hb hp with hreset | hdone | ⟨hpend, hbusy, hkept⟩
  · exact .inl hreset
  · exact .inr (.inl hdone)
  · exact .inr (.inr ⟨hpend.trans hp, hbusy.trans hb, hkept⟩)

end Sys2Proof.Machine
end

