-- ==== Sys2Proof/Proofs/Exceptions.lean ====
section
/-! PROOF. Errors and the interrupt (60_exceptions.md): which error an instruction records, the writers of
ERRV and ERROVF, the interrupt output, and that no safe schedule stops. -/

namespace Sys2Proof.Machine

/-! ### No step of a safe schedule stops (60_exceptions.md R175, R177) -/

/-- Every instruction answers a next state (60_exceptions.md R175): `sameOutcome_exec` compares a state with
itself. -/
theorem exec_answers_next (i : Instr) (s : State) : ∃ t, exec i s = .next t := by
  obtain ⟨t, -, ht, -⟩ := sameOutcome_exec (s := s) (t := s) rfl i
  exact ⟨t, ht⟩

/-- No instruction moves the reset line or the waiting inputs (logs 1, 6). -/
theorem ExecEffect.resetIn_inputs {s t : State} {i : Instr} (h : ExecEffect s i t) :
    t.resetIn = s.resetIn ∧ t.inputs = s.inputs := by
  cases h <;> simp

/-- No clock cycle moves the reset line (70_reset_and_hazards.md R201). -/
theorem clockCycle_resetIn (s : State) : (clockCycle s).resetIn = s.resetIn := by
  rcases clockCycle_cases s with ⟨-, h⟩ | ⟨c, -, -, -, h⟩ | ⟨c, -, -, -, h⟩
  all_goals rw [h]
  obtain ⟨-, -, -, -, -, -, -, -, -, -, hreset, -⟩ := complete_common c s
  exact hreset

/-- Clock cycles placed in front of a schedule leave it as safe as it is. -/
theorem safeInputs_replicate_clock (r : Bool) (n : Nat) (l : List Input) :
    safeInputs r (List.replicate n .clock ++ l) = safeInputs r l := by
  induction n with
  | zero => rfl
  | succ n ih => exact ih

/-- A step from a safe state answers a safe state. -/
theorem step_of_safe {s : State} (h : s.safe) : ∃ t, step s = .next t ∧ t.safe := by
  unfold State.safe at h ⊢
  cases hin : s.inputs with
  | nil =>
    have hn : nextInput s = .clock := by rw [nextInput, hin]
    exact ⟨_, step_clock hn, by simp [withHost, hin, safeInputs]⟩
  | cons input rest =>
    have hn : nextInput s = input := by rw [nextInput, hin]
    rw [hin] at h
    cases input with
    | txn d v =>
      obtain ⟨hr, hrest⟩ : s.resetIn = false ∧ safeInputs s.resetIn rest = true := by
        simpa [safeInputs] using h
      obtain ⟨t, ht⟩ := exec_answers_next (decodeTxn d v) { s with inputs := rest }
      obtain ⟨hreset, hinputs⟩ := (exec_effect ht).resetIn_inputs
      exact ⟨t, (step_txn hin hr).trans ht, by rw [hreset, hinputs]; exact hrest⟩
    | wait gaps =>
      obtain ⟨hr, hrest⟩ : s.resetIn = false ∧ safeInputs s.resetIn rest = true := by
        simpa [safeInputs] using h
      cases hb : s.status.busy with
      | false => exact ⟨_, step_wait_of_idle hin hr hb, hrest⟩
      | true =>
        refine ⟨_, step_wait_of_busy hin hr hb, ?_⟩
        exact (safeInputs_replicate_clock s.resetIn _ _).trans h
    | clock =>
      refine ⟨_, step_clock hn, ?_⟩
      change safeInputs (clockCycle s).resetIn s.inputs.tail = true
      rw [clockCycle_resetIn, hin]
      exact h
    | assertReset =>
      refine ⟨assertReset (takeInput s), by rw [step, hn], ?_⟩
      rw [assertReset_resetIn, assertReset_inputs, takeInput_inputs, hin]
      exact h
    | releaseReset =>
      refine ⟨releaseReset (takeInput s), by rw [step, hn], ?_⟩
      rw [releaseReset_resetIn, releaseReset_inputs, takeInput_inputs, hin]
      exact h

/-- Settles O58: every step answers a safe state (`step_of_safe`), so every number of them does. -/
theorem safeScheduleNeverStops : Obligations.SafeScheduleNeverStops := by
  intro n
  induction n with
  | zero => exact fun s hs => ⟨s, rfl, hs⟩
  | succ n ih =>
    intro s hs
    obtain ⟨t, hstep, ht⟩ := step_of_safe hs
    rw [run_succ hstep]
    exact ih t ht

/-! ### The first error of an instruction (60_exceptions.md R170, R173) -/

/-- An instruction that writes a command's word to CMD is checked for BUSY and then as that command. -/
theorem firstError_of_commandWord {i : Instr} {w : Word} {c : Cmd} {st : Status}
    (hw : commandWord i = some w) (hd : decodeCmd w = .ok c) (ha : accessApplies i = false)
    (hb : busyApplies i st = st.busy) :
    firstError i st = if st.busy then some .busy else cmdCheck c st := by
  have hill : illegalApplies i = false := by simp [illegalApplies, hw, hd]
  cases c <;> simp [firstError, ha, hb, hill, keystreamLen, hw, hd, cmdCheck, checkKsXor]

/-- The first error of a command is that of its issue (43_register_access.md R152, R159). -/
theorem firstError_toInstr (c : Cmd) (st : Status) :
    firstError c.toInstr st = if st.busy then some .busy else cmdCheck c st := by
  have hw : commandWord c.toInstr = some (encodeCmd c) := by cases c <;> rfl
  have ha : accessApplies c.toInstr = false := by cases c <;> rfl
  have hb : busyApplies c.toInstr st = st.busy := by cases c <;> exact Bool.and_true _
  exact firstError_of_commandWord hw (decodeCmd_encodeCmd c) ha hb

/-- The only error of a read is ACCESS. -/
theorem firstError_rd (size : Size) (off : BitVec 8) (st : Status) :
    firstError (.rd size off) st = if accessApplies (.rd size off) then some .access else none := by
  simp [firstError, busyApplies, illegalApplies, keystreamLen, commandWord]

/-- The errors of a write of a register other than CMD are ACCESS and BUSY. -/
theorem firstError_wr_of_ne_cmd {off : BitVec 8} (hcmd : off ≠ cmdOffset) (size : Size) (v : Word)
    (st : Status) : firstError (.wr size off v) st =
      if accessApplies (.wr size off v) then some .access
      else if busyApplies (.wr size off v) st then some .busy else none := by
  simp [firstError, illegalApplies, keystreamLen, commandWord, hcmd]

/-- ACCESS applies to a write outside the plain form or of a register that cannot be written
(60_exceptions.md R170). -/
theorem accessApplies_wr (size : Size) (off : BitVec 8) (v : Word) :
    accessApplies (.wr size off v) = false ↔
      plainAccess size off = true ∧ (classOf off).readOnly = false := by
  rw [readOnly_classOf]
  cases hw : writeRefused off.toNat with
  | true => simp [accessApplies, hw]
  | false =>
    have haligned : off.toNat % 4 = 0 := by
      simp only [writeRefused, readRefused, Bool.or_eq_false_iff, decide_eq_false_iff_not, not_not] at hw
      obtain ⟨⟨⟨⟨h, -⟩, -⟩, -⟩, -⟩ := hw
      exact h
    simp [accessApplies, plainAccess, legalAccess, hw, haligned]

/-- A plain access is a word access (20_memory.md R63). -/
theorem size_eq_word_of_plainAccess {size : Size} {off : BitVec 8} (h : plainAccess size off = true) :
    size = .word := by
  simp_all [plainAccess, legalAccess]

/-! ### What an instruction does, by its first error -/

/-- The error bits of STATUS are the same (10_state.md R24). -/
structure SameErrorBits (st st' : Status) : Prop where
  errv : st'.errv = st.errv
  errcode : st'.errcode = st.errcode
  errovf : st'.errovf = st.errovf

/-- What an instruction does: its first error alone is recorded; or none applies, and it is the STATUS write
or leaves the error bits (60_exceptions.md R172, R173, R175). -/
inductive ErrorEffect (i : Instr) (s : State) : Prop
  | refused (e : Err) (he : firstError i s.status = some e)
      (hx : exec i s = .next { s with resp := refusedResp i, status := withError (errCode e) s.status })
  | statusWrite (v : Word) (hi : i = .wr .word 0x04#8 v) (he : firstError i s.status = none)
      (hx : exec i s = .next (writeStatus v (answerNone s)))
  | passes (t : State) (he : firstError i s.status = none) (hx : exec i s = .next t)
      (ht : SameErrorBits s.status t.status)

/-- A refused command returns nothing to the host (43_register_access.md R153). -/
theorem refusedResp_toInstr (c : Cmd) : refusedResp c.toInstr = none := by
  cases c <;> rfl

/-- A command is refused by BUSY, else by its check, else accepted (43_register_access.md R152, R159). -/
theorem errorEffect_command (c : Cmd) (s : State) : ErrorEffect c.toInstr s := by
  have he := firstError_toInstr c s.status
  cases hb : s.status.busy with
  | true =>
    rw [hb, if_pos rfl] at he
    exact .refused .busy he (by rw [refusedResp_toInstr, exec_command_of_busy c hb]; rfl)
  | false =>
    rw [hb, if_neg Bool.false_ne_true] at he
    cases hc : cmdCheck c s.status with
    | some e => exact .refused e (he.trans hc) (by rw [refusedResp_toInstr, exec_of_check_some hb hc])
    | none => exact .passes _ (he.trans hc) (exec_of_check_none hb hc) ⟨rfl, rfl, rfl⟩

/-- A read is refused by ACCESS alone (43_register_access.md R150). -/
theorem errorEffect_rd (size : Size) (off : BitVec 8) (s : State) : ErrorEffect (.rd size off) s := by
  have he := firstError_rd size off s.status
  cases ha : accessApplies (.rd size off) with
  | true =>
    rw [ha, if_pos rfl] at he
    refine .refused .access he ?_
    rw [exec_rd_of_refused ha, record_eq]
    rfl
  | false =>
    rw [ha, if_neg Bool.false_ne_true] at he
    exact .passes _ he (exec_rd_of_allowed ha s) ⟨rfl, rfl, rfl⟩

/-- A write that records `e` is refused with `e`. -/
theorem errorEffect_wr_of_record {size : Size} {off : BitVec 8} {v : Word} {s : State} {e : Err}
    (he : firstError (.wr size off v) s.status = some e)
    (hx : exec (.wr size off v) s = .next (record e (answerNone s))) :
    ErrorEffect (.wr size off v) s := by
  rw [record_eq] at hx
  exact .refused e he hx

/-- A write to which ACCESS applies records ACCESS. -/
theorem exec_wr_of_access {size : Size} {off : BitVec 8} {v : Word}
    (ha : accessApplies (.wr size off v) = true) (s : State) :
    exec (.wr size off v) s = .next (record .access (answerNone s)) := by
  cases hp : plainAccess size off with
  | false => exact execWr_refused size off v s hp
  | true =>
    have hro : (classOf off).readOnly = true := by
      by_contra hro
      rw [(accessApplies_wr size off v).2 ⟨hp, Bool.eq_false_iff.2 hro⟩] at ha
      contradiction
    exact (execWr_plain size off v s hp).trans (writeReg_of_readOnly hro v _)

/-- A register write that is not refused, other than of STATUS and CMD, leaves the error bits
(43_register_access.md R153). -/
theorem writeReg_keeps_errorBits {c : RegClass} (hro : c.readOnly = false) (hst : c ≠ .status)
    (hcmd : c ≠ .cmd) {s : State} (hb : s.status.busy = false) (v : Word) :
    ∃ t, writeReg c v s = .next t ∧ SameErrorBits s.status t.status := by
  cases c with
  | ctrl | key | iv | din =>
    rw [writeReg, unlessBusy, hb, if_neg Bool.false_ne_true]
    exact ⟨_, rfl, rfl, rfl, rfl⟩
  | status => exact absurd rfl hst
  | cmd => exact absurd rfl hcmd
  | id | dout | reserved => cases hro

/-- A CMD write while BUSY = 0 records ILLEGAL_CMD or is the command of its word
(43_register_access.md R159). -/
theorem errorEffect_wr_cmd {s : State} (hb : s.status.busy = false) (v : Word) :
    ErrorEffect (.wr .word cmdOffset v) s := by
  have ha : accessApplies (.wr .word cmdOffset v) = false := rfl
  have hbusy : busyApplies (.wr .word cmdOffset v) s.status = s.status.busy := Bool.and_true _
  have hw : commandWord (.wr .word cmdOffset v) = some v := by rw [commandWord, if_pos rfl]
  cases hd : decodeCmd v with
  | reject r =>
    have he : firstError (.wr .word cmdOffset v) s.status = some .illegalCmd := by
      simp [firstError, ha, hbusy, hb, illegalApplies, hw, hd]
    exact errorEffect_wr_of_record he (exec_wr_cmd_of_reject hd hb)
  | ok c =>
    have he : firstError (.wr .word cmdOffset v) s.status = firstError c.toInstr s.status :=
      (firstError_of_commandWord hw hd ha hbusy).trans (firstError_toInstr c _).symm
    have hx := exec_wr_cmd hd s
    cases errorEffect_command c s with
    | refused e hc hxc =>
      rw [refusedResp_toInstr] at hxc
      exact .refused e (he.trans hc) (hx.trans hxc)
    | statusWrite w hi => cases c <;> cases hi
    | passes t hc hxc ht => exact .passes t (he.trans hc) (hx.trans hxc) ht

/-- A write is refused by ACCESS, then by BUSY but for STATUS, and then a CMD write by its word
(43_register_access.md R153). -/
theorem errorEffect_wr (size : Size) (off : BitVec 8) (v : Word) (s : State) :
    ErrorEffect (.wr size off v) s := by
  cases ha : accessApplies (.wr size off v) with
  | true =>
    exact errorEffect_wr_of_record (by simp [firstError, ha]) (exec_wr_of_access ha s)
  | false =>
    obtain ⟨hp, hro⟩ := (accessApplies_wr size off v).1 ha
    obtain rfl := size_eq_word_of_plainAccess hp
    have hwr : exec (.wr .word off v) s = writeReg (classOf off) v (answerNone s) :=
      execWr_plain .word off v s hp
    by_cases hst : classOf off = .status
    · obtain rfl : 0x04#8 = off := Option.some.inj ((registerMap off .status RegClass.noConfusion).1 hst)
      exact .statusWrite v rfl (by
        rw [firstError_wr_of_ne_cmd (by decide), ha]
        simp [busyApplies]) rfl
    have hoff : off ≠ 0x04#8 := fun h => hst (h ▸ rfl)
    have hbusy : busyApplies (.wr .word off v) s.status = s.status.busy := by simp [busyApplies, hoff]
    cases hb : s.status.busy with
    | true =>
      exact errorEffect_wr_of_record (by simp [firstError, ha, hbusy, hb])
        (hwr.trans (writeReg_of_busy hro hst (s := answerNone s) hb v))
    | false =>
      by_cases hcmd : off = cmdOffset
      · rw [hcmd]
        exact errorEffect_wr_cmd hb v
      · have hclass : classOf off ≠ .cmd := fun h =>
          hcmd (Option.some.inj ((registerMap off .cmd RegClass.noConfusion).1 h)).symm
        obtain ⟨t, ht, hbits⟩ := writeReg_keeps_errorBits hro hst hclass (s := answerNone s) hb v
        exact .passes t (by simp [firstError_wr_of_ne_cmd hcmd, ha, hbusy, hb])
          (hwr.trans ht) hbits

/-- Every instruction does what its first error says. -/
theorem errorEffect (i : Instr) (s : State) : ErrorEffect i s := by
  cases i with
  | nop => exact errorEffect_command .nop s
  | ks len => exact errorEffect_command (.ks len) s
  | xor len => exact errorEffect_command (.xor len) s
  | clrbuf => exact errorEffect_command .clrbuf s
  | zeroize => exact errorEffect_command .zeroize s
  | rd size off => exact errorEffect_rd size off s
  | wr size off v => exact errorEffect_wr size off v s

/-- Settles O12: both halves read the effect that `errorEffect` gives. -/
theorem firstErrorIsRecorded : Obligations.FirstErrorIsRecorded := by
  refine ⟨fun i s e he => ?_, fun i s he => ?_⟩
  · cases errorEffect i s with
    | refused e' he' hx =>
      obtain rfl : e = e' := Option.some.inj (he.symm.trans he')
      exact hx
    | statusWrite v hi hnone | passes t hnone => exact nomatch he.symm.trans hnone
  · cases errorEffect i s with
    | refused e he' => exact nomatch he.symm.trans he'
    | statusWrite v hi hnone hx => exact ⟨_, hx, fun hne => absurd hi (hne .word v)⟩
    | passes t hnone hx ht => exact ⟨t, hx, fun _ => ⟨ht.errv, ht.errcode, ht.errovf⟩⟩

/-! ### The writers of ERRV and ERROVF (60_exceptions.md R172, R176) -/

/-- No clock cycle changes the error bits: a completion raises no error (60_exceptions.md R170). -/
theorem clockCycle_keeps_errorBits (s : State) : SameErrorBits s.status (clockCycle s).status := by
  rcases clockCycle_cases s with ⟨-, h⟩ | ⟨c, -, -, -, h⟩ | ⟨c, -, -, -, h⟩
  all_goals rw [h]
  · exact ⟨rfl, rfl, rfl⟩
  · obtain ⟨-, -, -, -, -, -, -, hv, hcode, hovf, -⟩ := complete_common c s
    exact ⟨hv, hcode, hovf⟩
  · exact ⟨rfl, rfl, rfl⟩

/-- The transaction that decodes to the STATUS write (30_encoding.md R84, 10_state.md R21). -/
theorem eq_of_decodeTxn_status {d : BitVec 11} {v w : Word} (h : decodeTxn d v = .wr .word 0x04#8 w) :
    d = 0x604#11 ∧ w = v := by
  have hd : d = encodeDesc true .word 0x04#8 := eq_encodeDesc_of_decodeTxn_wr h
  subst hd
  cases (decodeTxn_encodeDesc true .word 0x04#8 v).symm.trans h
  exact ⟨rfl, rfl⟩

/-- What a step does to the error bits: a transaction with an error records the first, the STATUS write and
reset clear, and nothing else changes them. -/
inductive StepErrorEffect (s t : State) : Prop
  | kept (hbits : SameErrorBits s.status t.status)
  | reset (hn : nextInput s = .assertReset) (ht : t.status = Status.reset)
  | recorded (d : BitVec 11) (v : Word) (e : Err) (hn : nextInput s = .txn d v)
      (he : firstError (decodeTxn d v) s.status = some e) (ht : t.status = withError (errCode e) s.status)
  | statusWrite (v : Word) (hn : nextInput s = .txn 0x604#11 v) (ht : t.status = clearW1C v s.status)

/-- Every step is one of these: a transaction by `errorEffect`. -/
theorem step_errorEffect {s t : State} (h : step s = .next t) : StepErrorEffect s t := by
  rcases step_cases h with ⟨d, v, hn, -, hx⟩ | ⟨-, rfl⟩ | ⟨hn, rfl⟩ | ⟨-, rfl⟩ | ⟨gaps, -, -, rfl⟩
  · cases errorEffect (decodeTxn d v) (takeInput s) with
    | refused e he hx' =>
      cases hx.symm.trans hx'
      exact .recorded d v e hn he rfl
    | statusWrite w hi he hx' =>
      obtain ⟨rfl, rfl⟩ := eq_of_decodeTxn_status hi
      cases hx.symm.trans hx'
      exact .statusWrite w hn rfl
    | passes u he hx' hu =>
      cases hx.symm.trans hx'
      exact .kept hu
  · exact .kept (clockCycle_keeps_errorBits (takeInput s))
  · exact .reset hn rfl
  · exact .kept ⟨rfl, rfl, rfl⟩
  · refine .kept ?_
    split <;> exact ⟨rfl, rfl, rfl⟩

/-- Settles O52: of the steps of `step_errorEffect` only a recorded error sets a bit, and only reset and the
STATUS write clear one. -/
theorem errorFlagWriters : Obligations.ErrorFlagWriters := by
  refine ⟨fun s t h h0 h1 => ?_, fun s t h h1 h0 => ?_, fun s t h h0 h1 => ?_, fun s t h h1 h0 => ?_⟩
  · cases step_errorEffect h with
    | kept hbits => simp [hbits.errv, h0] at h1
    | reset hn ht => simp [ht, Status.reset] at h1
    | recorded d v e hn he ht => exact ⟨d, v, e, hn, he, by simp [ht, withError, h0]⟩
    | statusWrite v hn ht => simp [ht, clearW1C, h0] at h1
  · cases step_errorEffect h with
    | kept hbits => simp [hbits.errv, h1] at h0
    | reset hn ht => exact .inl hn
    | recorded d v e hn he ht => simp [ht, withError] at h0
    | statusWrite v hn ht => exact .inr ⟨v, hn, by simpa [ht, clearW1C, h1] using h0⟩
  · cases step_errorEffect h with
    | kept hbits => simp [hbits.errovf, h0] at h1
    | reset hn ht => simp [ht, Status.reset] at h1
    | recorded d v e hn he ht => exact ⟨by simpa [ht, withError, h0] using h1, d, v, e, hn, he⟩
    | statusWrite v hn ht => simp [ht, clearW1C, h0] at h1
  · cases step_errorEffect h with
    | kept hbits => simp [hbits.errovf, h1] at h0
    | reset hn ht => exact .inl hn
    | recorded d v e hn he ht => simp [ht, withError, h1] at h0
    | statusWrite v hn ht => exact .inr ⟨v, hn, by simpa [ht, clearW1C, h1] using h0⟩

/-! ### Recording an error (60_exceptions.md R172) -/

/-- Settles O11: recording an error branches on ERRV, and the codes are those of R170. -/
theorem errorRecording : Obligations.ErrorRecording := by
  refine fun e s => ⟨fun h => ?_, fun h => ?_, by cases e <;> rfl⟩
  · rw [record, h, if_neg Bool.false_ne_true]
  · rw [record, h, if_pos rfl]

/-! ### The interrupt output (60_exceptions.md R180) -/

/-- After a STATUS write a source of irq is left unless its bit was written 1
(43_register_access.md R155). -/
theorem irq_after_wr_status (v : Word) (s : State) :
    irq (after (.wr .word 0x04#8 v) s) =
      ((s.status.done && !v.getLsbD 1) && s.ctrl.doneIe || (s.status.errv && !v.getLsbD 2) && s.ctrl.errIe) :=
  rfl

/-- An accepted command clears DONE and leaves the error source (70_reset_and_hazards.md R205). -/
theorem irq_accept (c : Cmd) (s : State) : irq (accept c s) = (s.status.errv && s.ctrl.errIe) :=
  rfl

/-- A command without error is accepted (43_register_access.md R159). -/
theorem after_command_of_no_error {c : Cmd} {s : State} (h : firstError c.toInstr s.status = none) :
    after c.toInstr s = accept c (answerNone s) := by
  rw [firstError_toInstr] at h
  cases hb : s.status.busy with
  | true => simp [hb] at h
  | false =>
    rw [hb, if_neg Bool.false_ne_true] at h
    rw [after, exec_of_check_none hb h]

/-- Settles O53: a STATUS write by `irq_after_wr_status`, an accepted command by `irq_accept`. -/
theorem interruptOutput : Obligations.InterruptOutput := by
  refine ⟨fun s => by simp [irq], fun s v h1 h2 => ?_, fun s v h1 h2 => ?_, fun s v h1 h2 => ?_,
    fun c s h => ?_⟩
  · rw [irq_after_wr_status, h1, h2]
    simp
  · rw [irq_after_wr_status, h1, h2]
    simp
  · rw [irq_after_wr_status, h1, h2]
    simp
  · rw [after_command_of_no_error h, irq_accept]
    rfl

end Sys2Proof.Machine
end

