-- ==== Sys2Proof/Proofs/ResetAndHazards.lean ====
section
/-! PROOF. Reset, time and the life of a command (70_reset_and_hazards.md): the reset values, the steps that
run no instruction, acceptance and completion, the timing, and the writers of BUSY and DONE. -/

namespace Sys2Proof.Machine

/-! ### Timing (70_reset_and_hazards.md R211) -/

/-- A cycle lowers LEFT exactly if a command is pending and reset is released; the last one, which completes
the command, too (10_state.md R35). -/
theorem clockCycle_left (s : State) :
    (clockCycle s).left = if s.pend.isSome && !s.resetIn then s.left - 1 else s.left := by
  rcases clockCycle_cases s with ⟨hi, h⟩ | ⟨c, hr, hp, hl, h⟩ | ⟨c, hr, hp, hl, h⟩
  all_goals rw [h]
  · rcases hi with hr | hp
    · simp [hr]
    · simp [hp]
  · obtain ⟨-, -, -, hleft, -⟩ := complete_common c s
    simp only [hleft, hp, hr, Option.isSome_some, Bool.not_false, Bool.and_true, if_true]
    omega
  · simp [hp, hr]

/-- A command stays pending through a cycle unless it is its last (10_state.md R35). -/
theorem clockCycle_pend_isSome (s : State) :
    (clockCycle s).pend.isSome = (s.pend.isSome && (s.resetIn || decide (1 < s.left))) := by
  rcases clockCycle_cases s with ⟨hi, h⟩ | ⟨c, hr, hp, hl, h⟩ | ⟨c, hr, hp, hl, h⟩
  all_goals rw [h]
  · rcases hi with hr | hp
    · simp [hr]
    · simp [hp]
  · obtain ⟨-, -, hpend, -⟩ := complete_common c s
    simp [hpend, hr, Nat.not_lt.2 hl]
  · simp [hp, hl]

/-- Settles O46: what a cycle leaves pending and LEFT are functions of the three things the states agree on
(`clockCycle_pend_isSome`, `clockCycle_left`), and acceptance sets LEFT to CC20_LATENCY. -/
theorem timingIndependentOfData : Obligations.TimingIndependentOfData := by
  refine ⟨fun n => ?_, fun c d s t hc hd => ?_⟩
  · induction n with
    | zero => exact fun s t hp hl _ => ⟨hp, hl⟩
    | succ n ih =>
      intro s t hp hl hr
      refine ih (clockCycle s) (clockCycle t) ?_ ?_ ?_
      · rw [clockCycle_pend_isSome, clockCycle_pend_isSome, hp, hl, hr]
      · rw [clockCycle_left, clockCycle_left, hp, hl, hr]
      · rw [clockCycle_resetIn, clockCycle_resetIn, hr]
  · rw [after_command_of_no_error hc, after_command_of_no_error hd]
    exact ⟨rfl, rfl⟩

/-! ### The writers of BUSY and DONE (10_state.md, section 7) -/

/-- The transaction that decodes to a write (30_encoding.md R85). -/
theorem eq_of_decodeTxn_wr {d : BitVec 11} {v w : Word} {size : Size} {off : BitVec 8}
    (h : decodeTxn d v = .wr size off w) : d = encodeDesc true size off ∧ v = w := by
  have hd : d = encodeDesc true size off := eq_encodeDesc_of_decodeTxn_wr h
  subst hd
  cases (decodeTxn_encodeDesc true size off v).symm.trans h
  exact ⟨rfl, rfl⟩

/-- A plain access to a register is the word access at its offset (10_state.md R21). -/
theorem eq_of_plainAccess_classOf {size : Size} {off off' : BitVec 8} {c : RegClass}
    (hp : plainAccess size off = true) (hc : classOf off = c) (ho : offsetOf c = some off') :
    size = .word ∧ off = off' := by
  have hne : c ≠ .reserved := by rintro rfl; cases ho
  exact ⟨size_eq_word_of_plainAccess hp,
    Option.some.inj (((registerMap off c hne).1 hc).symm.trans ho)⟩

/-- A transaction that issues a command is the CMD write of the command's word (30_encoding.md R93). -/
theorem eq_of_issues_decodeTxn {d : BitVec 11} {v : Word} {c : Cmd} (h : Issues (decodeTxn d v) c) :
    d = 0x608#11 ∧ v = encodeCmd c := by
  rcases h with h | ⟨size, off, w, hi, hp, hc, hd⟩
  · unfold decodeTxn at h
    split at h <;> cases c <;> cases h
  · obtain ⟨rfl, rfl⟩ := eq_of_plainAccess_classOf hp hc rfl
    obtain ⟨rfl, rfl⟩ := eq_of_decodeTxn_wr hi
    exact ⟨rfl, ((decodeCmd_eq_ok_iff_encodeCmd v c).1 hd).symm⟩

/-- What a step does to BUSY and DONE: acceptance, completion, the STATUS write and reset write them, and
nothing else changes them. -/
inductive StepBusyDone (s t : State) : Prop
  | kept (hb : t.status.busy = s.status.busy) (hd : t.status.done = s.status.done)
  | reset (hn : nextInput s = .assertReset) (ht : t.status = Status.reset)
  | statusWrite (v : Word) (hn : nextInput s = .txn 0x604#11 v) (ht : t.status = clearW1C v s.status)
  | accepted (c : Cmd) (hn : nextInput s = .txn 0x608#11 (encodeCmd c))
      (ht : t = accept c (answerNone (takeInput s)))
  | completed (c : Cmd) (hn : nextInput s = .clock) (hp : s.pend = some c)
      (ht : t = complete c (takeInput s))

/-- A transaction is the STATUS write or an accepted command, or keeps BUSY and DONE. -/
theorem stepBusyDone_of_txn {s t : State} {d : BitVec 11} {v : Word} (hn : nextInput s = .txn d v)
    (he : ExecEffect (takeInput s) (decodeTxn d v) t) : StepBusyDone s t := by
  generalize hi : decodeTxn d v = i at he
  cases he with
  | status size off w hp hc =>
    obtain ⟨rfl, rfl⟩ := eq_of_plainAccess_classOf hp hc rfl
    obtain ⟨rfl, rfl⟩ := eq_of_decodeTxn_wr hi
    exact .statusWrite v hn rfl
  | accepted _ c hissues =>
    obtain ⟨rfl, rfl⟩ := eq_of_issues_decodeTxn (hi ▸ hissues)
    exact .accepted c hn rfl
  | readRefused | read | refused | ctrl | key | iv | din => exact .kept (by simp) (by simp)

/-- Every step is one of these. -/
theorem step_busyDone {s t : State} (h : step s = .next t) : StepBusyDone s t := by
  cases step_effect h with
  | txn d v hn hr he => exact stepBusyDone_of_txn hn he
  | completes c hn hr hp hl => exact .completed c hn hp rfl
  | assertReset hn => exact .reset hn rfl
  | idle | counts | releaseReset | wait => exact .kept rfl rfl

/-- Settles O51: of the steps of `step_busyDone` only acceptance sets BUSY and only a completion sets DONE;
reset clears both, a completion BUSY, an acceptance and the STATUS write DONE. -/
theorem busyDoneWriters : Obligations.BusyDoneWriters := by
  refine ⟨fun s t h h0 h1 => ?_, fun s t h h1 h0 => ?_, fun s t h h0 h1 => ?_, fun s t h h1 h0 => ?_⟩
  · cases step_busyDone h with
    | kept hb => simp [hb, h0] at h1
    | reset hn ht => simp [ht, Status.reset] at h1
    | statusWrite v hn ht => simp [ht, clearW1C, h0] at h1
    | accepted c hn ht => subst ht; exact ⟨c, hn, rfl, rfl, rfl⟩
    | completed c hn hp ht => subst ht; cases h1
  · cases step_busyDone h with
    | kept hb => simp [hb, h1] at h0
    | reset hn ht => exact .inl hn
    | statusWrite v hn ht => simp [ht, clearW1C, h1] at h0
    | accepted c hn ht => subst ht; cases h0
    | completed c hn hp ht => subst ht; exact .inr ⟨hn, rfl, rfl⟩
  · cases step_busyDone h with
    | kept _ hd => simp [hd, h0] at h1
    | reset hn ht => simp [ht, Status.reset] at h1
    | statusWrite v hn ht => simp [ht, clearW1C, h0] at h1
    | accepted c hn ht => subst ht; cases h1
    | completed c hn hp ht => subst ht; exact ⟨hn, by simp [hp], rfl, rfl⟩
  · cases step_busyDone h with
    | kept _ hd => simp [hd, h1] at h0
    | reset hn ht => exact .inl hn
    | statusWrite v hn ht => exact .inr (.inl ⟨v, hn, by simpa [ht, clearW1C, h1] using h0⟩)
    | accepted c hn ht => subst ht; exact .inr (.inr ⟨c, hn, rfl⟩)
    | completed c hn hp ht => subst ht; cases h0

/-! ### The steps that run no instruction (70_reset_and_hazards.md R200, R201, R206) -/

/-- The first waiting input is the next one. -/
theorem nextInput_of_cons {s : State} {input : Input} {rest : List Input} (h : s.inputs = input :: rest) :
    nextInput s = input := by
  rw [nextInput, h]

theorem takeInput_of_cons {s : State} {input : Input} {rest : List Input} (h : s.inputs = input :: rest) :
    takeInput s = { s with inputs := rest } := by
  rw [takeInput, h]
  rfl

/-- With nothing waiting there is no input to take away (log 2). -/
theorem takeInput_of_nil {s : State} (h : s.inputs = []) : takeInput s = s := by
  rw [takeInput, h, List.tail_nil, ← h]

/-- A step whose input is a clock cycle is that cycle at the state with the input taken. -/
theorem step_clock_takeInput {s : State} (hn : nextInput s = .clock) :
    step s = .next (clockCycle (takeInput s)) := by
  rw [step, hn]

theorem step_assertReset {s : State} {rest : List Input} (h : s.inputs = .assertReset :: rest) :
    step s = .next (assertReset { s with inputs := rest }) := by
  rw [step, nextInput_of_cons h, takeInput_of_cons h]

theorem step_releaseReset {s : State} {rest : List Input} (h : s.inputs = .releaseReset :: rest) :
    step s = .next { s with resetIn := false, inputs := rest } := by
  rw [step, nextInput_of_cons h, takeInput_of_cons h]
  rfl

/-- While reset is asserted the block accepts neither a transaction nor `wait` (log 6). -/
theorem step_fault_of_resetIn {s : State} (hr : s.resetIn = true)
    (hn : (∃ d v, nextInput s = .txn d v) ∨ ∃ gaps, nextInput s = .wait gaps) :
    step s = .fault .transactionDuringReset := by
  rcases hn with ⟨d, v, hn⟩ | ⟨gaps, hn⟩
  · simp [step, hn, hr]
  · simp [step, hn, hr]

/-- Settles O9: one lemma for each kind of input. -/
theorem otherSteps : Obligations.OtherSteps := by
  refine fun s rest => ⟨fun h => ?_, fun h => ?_, step_assertReset, step_releaseReset, fun d v h hr => ?_,
    fun gaps h => ⟨fun hr => ?_, step_wait_of_idle h, step_wait_of_busy h⟩, fun d v h => ?_⟩
  · have hn : nextInput s = .clock := by rw [nextInput, h]
    rw [step_clock_takeInput hn, takeInput_of_nil h]
  · rw [step_clock_takeInput (nextInput_of_cons h), takeInput_of_cons h]
  · exact step_fault_of_resetIn hr (.inl ⟨d, v, nextInput_of_cons h⟩)
  · exact step_fault_of_resetIn hr (.inr ⟨gaps, nextInput_of_cons h⟩)
  · exact ⟨_, step_releaseReset h, step_txn rfl rfl⟩

/-! ### Acceptance and completion (70_reset_and_hazards.md R205) -/

/-- A command to which no error applies is accepted (43_register_access.md R159). -/
theorem exec_command_of_no_error {c : Cmd} {s : State} (h : firstError c.toInstr s.status = none) :
    exec c.toInstr s = .next (accept c (answerNone s)) := by
  obtain ⟨t, ht⟩ := exec_answers_next c.toInstr s
  have hafter : t = accept c (answerNone s) := by
    simpa only [after, ht] using after_command_of_no_error h
  rw [ht, hafter]

/-- Settles O44: acceptance is `exec_command_of_no_error`, and the last cycle is the command's own completion
and then `finish`. -/
theorem acceptAndComplete : Obligations.AcceptAndComplete :=
  ⟨fun _ _ h => exec_command_of_no_error h,
    fun c s hr hp hl => ⟨completeCmd c s, by cases c <;> rfl, clockCycle_of_le hr hp hl.le⟩⟩

/-! ### The reset values (70_reset_and_hazards.md R200) -/

/-- The reset state, and the state after reset is asserted, differ in the reset line and in what the host
holds only (log 6). -/
theorem eq_reset_of_reset {r : State} (h : r = State.reset ∨ ∃ s, r = assertReset s) :
    ∃ b p l, r = withHost p l { State.reset with resetIn := b } := by
  rcases h with rfl | ⟨s, rfl⟩
  · exact ⟨false, none, [], rfl⟩
  · exact ⟨true, s.resp, s.inputs, rfl⟩

/-- CTRL reads 1 after reset: the 64-bit counter, both interrupt enables off. -/
theorem ctrlWord_reset : ctrlWord Ctrl.reset = 0x00000001#32 := by
  decide

/-- STATUS reads 0 after reset. -/
theorem statusWord_reset : statusWord Status.reset = 0x00000000#32 := by
  decide

/-- Settles O54: the values are those of `State.reset` (`eq_reset_of_reset`), with no command pending no
cycle does anything, and the step is `step_assertReset`. -/
theorem resetValues : Obligations.ResetValues := by
  refine ⟨fun r hr => ?_, fun s rest => step_assertReset⟩
  obtain ⟨b, p, l, rfl⟩ := eq_reset_of_reset hr
  have hzero {n w : Nat} (i : Fin n) : (Vector.replicate n 0#w)[i] = 0#w := Vector.getElem_replicate i.isLt
  exact ⟨ctrlWord_reset, statusWord_reset, hzero, hzero, hzero, hzero, rfl, rfl, hzero, hzero, rfl, rfl,
    clockCycle_of_idle (.inr rfl)⟩

end Sys2Proof.Machine
end
